-- ==== Sys2Proof/Word.lean ====
section
/-! DEFINITION. The widths of the MSP framer: bytes and the two operation words. -/

namespace Sys2Proof

/-- A byte: 8 bits, bit 7 the most significant (00_scope.md R5). -/
abbrev Byte := BitVec 8

/-- The RX operation word, rxop in bits 12:11, state in 10:8, byte in 7:0 (30_encoding.md R56). -/
abbrev RxWord := BitVec 13

/-- The TX operation word, txop in bits 35:34, dir in 33:32, len in 31:24, opcode in 23:16, buf_len in
15:0 (30_encoding.md R57). -/
abbrev TxWord := BitVec 36

/-- The `buf_len` operand of ENCODE, `BUFLEN_W` = 16 bits wide (30_encoding.md R57). -/
abbrev BufLen := BitVec 16

end Sys2Proof
end

