-- ==== Sys2Proof/Config.lean ====
section
/-! DEFINITION. The implementation parameters of 00_scope.md R4 and the one value the model adds: what a cell of
a caller's memory that nothing has written reads as. The block leaves no result open, so there is no free value. -/

namespace Sys2Proof.Config

/-- Width of `buf_len`: "a parameter, at least 9; default 16" (00_scope.md R4, 92_eei_decisions.md D13).
DESIGN CHOICE (log entry 6): the default. -/
abbrev BUFLEN_W : Nat := 16

/-- The longest payload (00_scope.md R4). -/
abbrev MAX_PAYLOAD : Nat := 255

/-- The shortest frame on the wire (00_scope.md R4). -/
abbrev MIN_FRAME : Nat := 6

/-- The longest frame on the wire (00_scope.md R4). -/
abbrev MAX_FRAME : Nat := 261

/-- Cells of RXBUF, indices 0 to 254 (10_state.md R20). -/
abbrev RXBUF_CELLS : Nat := 255

/-- Cells of TXSRC: a payload has at most 255 bytes (10_state.md R20). -/
abbrev TXSRC_CELLS : Nat := 255

/-- Cells of TXBUF: `buf_len` cells, and `buf_len` is below 2 to the power `BUFLEN_W` (10_state.md R20). -/
abbrev TXBUF_CELLS : Nat := 2 ^ BUFLEN_W - 1

/-- The strictness configuration is fixed: framing violations are never reported as errors (92_eei_decisions.md
D9, log entry 15). No operation reads it: the value `true` has no defined behaviour (93_implementation_defined.md U4). -/
abbrev STRICT_FRAMING : Bool := false

/-- What a cell of TXSRC or TXBUF reads as before anything has written it.
DESIGN CHOICE (log entry 5), unsafe: both memories are the caller's and the spec gives them no content. -/
abbrev UNWRITTEN : Byte := 0x00

end Sys2Proof.Config
end

