-- ==== Sys2Proof/Syntax.lean ====
section
/-! DEFINITION. The syntax: directions, frames, and the operations of the block, one constructor per row of
spec/opcode_table.json. -/

namespace Sys2Proof

/-- A direction of a frame (00_scope.md R5, 30_encoding.md R48). -/
inductive Direction where
  | toDevice
  | fromDevice
  | unsupported
  deriving DecidableEq, Repr

/-- One protocol message (00_scope.md R5). That the payload has at most 255 bytes is `Frame.WellFormed`. -/
structure Frame where
  opcode : Byte
  direction : Direction
  payload : List Byte
  deriving DecidableEq, Repr

/-- The operations, one constructor per row of the opcode table. The RX rows of a fixed byte have no operand;
the others carry the byte of the `PUSH`. The TX rows carry the fields of the TX word that they use; the payload
is not in the word, it is the cells of TXSRC (30_encoding.md R57). -/
inductive Instr where
  /-- RESET (40_decoder.md R85). -/
  | reset
  /-- IDLE? (40_decoder.md R86). -/
  | idleQuery
  /-- P1.MATCH (40_decoder.md R70). -/
  | p1Match
  /-- P1.SKIP (40_decoder.md R71). -/
  | p1Skip (b : Byte)
  /-- P2.MATCH (40_decoder.md R72). -/
  | p2Match
  /-- P2.MISS (40_decoder.md R73). -/
  | p2Miss (b : Byte)
  /-- DIR.TO (40_decoder.md R74). -/
  | dirTo
  /-- DIR.FROM (40_decoder.md R75). -/
  | dirFrom
  /-- DIR.UNS (40_decoder.md R76). -/
  | dirUns
  /-- DIR.BAD (40_decoder.md R77). -/
  | dirBad (b : Byte)
  /-- LEN (40_decoder.md R78). -/
  | len (b : Byte)
  /-- OPC.Z (40_decoder.md R79). -/
  | opcZ (b : Byte)
  /-- OPC.NZ (40_decoder.md R80). -/
  | opcNz (b : Byte)
  /-- PAY.MORE (40_decoder.md R81). -/
  | payMore (b : Byte)
  /-- PAY.LAST (40_decoder.md R82). -/
  | payLast (b : Byte)
  /-- CHK.OK (40_decoder.md R83). -/
  | chkOk (b : Byte)
  /-- CHK.BAD (40_decoder.md R84). -/
  | chkBad (b : Byte)
  /-- WIRESIZE (41_encoder.md R95). -/
  | wiresize (len : Byte)
  /-- CKSUM (41_encoder.md R96). -/
  | cksum (dir : Direction) (len opcode : Byte)
  /-- ENCODE.OK (41_encoder.md R97). -/
  | encodeOk (dir : Direction) (len opcode : Byte) (bufLen : BufLen)
  /-- ENCODE.ERR (41_encoder.md R98). -/
  | encodeErr (dir : Direction) (len opcode : Byte) (bufLen : BufLen)
  deriving DecidableEq, Repr

end Sys2Proof
end

