-- ==== Sys2Proof/Machine/Wire.lean ====
section
/-! DEFINITION. The wire frame: marker bytes, the direction byte, sizes, the checksum and the layout of a frame
(30_encoding.md R45 to R51, 20_memory.md R33). -/

namespace Sys2Proof

/-- The first preamble byte, the character `$` (30_encoding.md R46; log entry 11). -/
def PRE1 : Byte := 0x24

/-- The second preamble byte, the character `M` (30_encoding.md R46; log entry 11). -/
def PRE2 : Byte := 0x4D

/-- `to_byte` (30_encoding.md R48; log entry 11). -/
def Direction.toByte : Direction → Byte
  | .toDevice => 0x3C
  | .fromDevice => 0x3E
  | .unsupported => 0x21

/-- `from_byte`, partial: every byte but three has no Direction (30_encoding.md R48). -/
def Direction.ofByte (b : Byte) : Option Direction :=
  if b = 0x3C then some .toDevice
  else if b = 0x3E then some .fromDevice
  else if b = 0x21 then some .unsupported
  else none

/-- The register code of a Direction (10_state.md R12, 30_encoding.md R48). -/
def Direction.code : Direction → BitVec 2
  | .toDevice => 1
  | .fromDevice => 2
  | .unsupported => 3

/-- The Direction of a register code; code 0 is none (10_state.md R12, 30_encoding.md R58). -/
def Direction.ofCode (c : BitVec 2) : Option Direction :=
  if c = 1 then some .toDevice
  else if c = 2 then some .fromDevice
  else if c = 3 then some .unsupported
  else none

/-- `fold(s)`, the exclusive-or of a byte sequence, 0x00 for the empty one (00_scope.md R5). -/
def fold : List Byte → Byte
  | [] => 0x00
  | b :: bs => b ^^^ fold bs

/-- `cksum(len, opcode, payload)` (30_encoding.md R51). -/
def wireChecksum (len opcode : Byte) (payload : List Byte) : Byte :=
  len ^^^ opcode ^^^ fold payload

/-- The size of a frame with `n` payload bytes, in the natural numbers (30_encoding.md R47). -/
def wireSize (n : Nat) : Nat := 6 + n

/-- The LEN byte of a frame: the payload length as one byte (30_encoding.md R49). -/
def Frame.lenByte (f : Frame) : Byte := BitVec.ofNat 8 f.payload.length

/-- The CHECKSUM byte of a frame (30_encoding.md R51). -/
def Frame.checksum (f : Frame) : Byte := wireChecksum f.lenByte f.opcode f.payload

/-- `FRAME d, op, p`: the bytes of a frame on the wire, in order (30_encoding.md R45, R60). -/
def Frame.bytes (f : Frame) : List Byte :=
  [PRE1, PRE2, f.direction.toByte, f.lenByte, f.opcode] ++ f.payload ++ [f.checksum]

end Sys2Proof
end

