-- ==== Sys2Proof/WellFormed.lean ====
section
/-! DEFINITION. Well-formed terms: the byte and size conditions that the rule of a row puts on its operands
alone. Conditions on registers are the decoder's (`Instr.RegCond`, Decode.lean). -/

namespace Sys2Proof

/-- The Frame type's bound on the payload (00_scope.md R5, 30_encoding.md R50). A longer sequence is not a Frame
(93_implementation_defined.md U1, log entry 13). -/
abbrev Frame.WellFormed (f : Frame) : Prop := f.payload.length ≤ Config.MAX_PAYLOAD

/-- The operand conditions of the rows (30_encoding.md R56, R57), as a Bool. -/
def Instr.isWellFormed : Instr → Bool
  | .reset => true
  | .idleQuery => true
  | .p1Match => true
  | .p1Skip b => decide (b ≠ PRE1)
  | .p2Match => true
  | .p2Miss b => decide (b ≠ PRE2)
  | .dirTo => true
  | .dirFrom => true
  | .dirUns => true
  | .dirBad b => decide (Direction.ofByte b = none)
  | .len _ => true
  | .opcZ _ => true
  | .opcNz _ => true
  | .payMore _ => true
  | .payLast _ => true
  | .chkOk _ => true
  | .chkBad _ => true
  | .wiresize _ => true
  | .cksum _ _ _ => true
  | .encodeOk _ n _ bufLen => decide (bufLen.toNat = wireSize n.toNat)
  | .encodeErr _ n _ bufLen => decide (bufLen.toNat ≠ wireSize n.toNat)

/-- An operation whose operands are in its row. -/
abbrev Instr.WellFormed (i : Instr) : Prop := i.isWellFormed = true

end Sys2Proof
end

