-- ==== Sys2Proof/Decode.lean ====
section
/-! DEFINITION. Decoding of operation words, and the encoder.
RX words are matched on the ordered table of 30_encoding.md R56: a row matches when `(w & mask) == match` and its
register condition holds, and the first row that matches is taken. TX words are read by their fields (30_encoding.md
R57). Reserved codes are refused by name (30_encoding.md R58, 93_implementation_defined.md U5). -/

namespace Sys2Proof

/-- Why a word is no operation (30_encoding.md R58). -/
inductive DecodeError where
  /-- `rxop` is 3. -/
  | reservedRxop
  /-- the state field of a `PUSH` word is 7. -/
  | reservedState
  /-- `txop` is 3. -/
  | reservedTxop
  /-- `dir` is 0 in a `CKSUM` or `ENCODE` word. -/
  | noDirection
  deriving DecidableEq, Repr

/-- The two registers that the conditions of the RX table read (30_encoding.md R56, column cond). -/
structure CondRegs where
  remaining : Byte
  checksum : Byte
  deriving DecidableEq, Repr

/-- The condition column of the RX table (30_encoding.md R56). -/
inductive RxCond where
  | always
  | remainingZero
  | remainingNonzero
  | remainingNotOne
  | remainingOne
  | byteIsChecksum
  | byteIsNotChecksum
  deriving DecidableEq, Repr

/-- Does a row's condition hold for the registers and the byte of the word. -/
def RxCond.holds (c : RxCond) (regs : CondRegs) (b : Byte) : Bool :=
  match c with
  | .always => true
  | .remainingZero => regs.remaining == 0
  | .remainingNonzero => regs.remaining != 0
  | .remainingNotOne => regs.remaining != 1
  | .remainingOne => regs.remaining == 1
  | .byteIsChecksum => b == regs.checksum
  | .byteIsNotChecksum => b != regs.checksum

/-- One row of the RX table. -/
structure RxRow where
  pattern : RxWord
  mask : RxWord
  cond : RxCond
  build : Byte → Instr

/-- Bits 7:0 of an RX word. -/
def rxByte (w : RxWord) : Byte := w.extractLsb' 0 8

/-- Bits 10:8 of an RX word. -/
def rxStateField (w : RxWord) : BitVec 3 := w.extractLsb' 8 3

/-- Bits 12:11 of an RX word. -/
def rxOp (w : RxWord) : BitVec 2 := w.extractLsb' 11 2

/-- `{rxop, state, byte}` (30_encoding.md R56). -/
def rxWord (rxop : BitVec 2) (st : BitVec 3) (b : Byte) : RxWord := rxop ++ st ++ b

/-- Rows 1 to 6 of 30_encoding.md R56. -/
def rxRowsPreamble : List RxRow :=
  [ ⟨0x0800, 0x1800, .always, fun _ => .reset⟩,
    ⟨0x1000, 0x1800, .always, fun _ => .idleQuery⟩,
    ⟨0x0024, 0x1FFF, .always, fun _ => .p1Match⟩,
    ⟨0x0000, 0x1F00, .always, .p1Skip⟩,
    ⟨0x014D, 0x1FFF, .always, fun _ => .p2Match⟩,
    ⟨0x0100, 0x1F00, .always, .p2Miss⟩ ]

/-- Rows 7 to 11 of 30_encoding.md R56. -/
def rxRowsHeader : List RxRow :=
  [ ⟨0x023C, 0x1FFF, .always, fun _ => .dirTo⟩,
    ⟨0x023E, 0x1FFF, .always, fun _ => .dirFrom⟩,
    ⟨0x0221, 0x1FFF, .always, fun _ => .dirUns⟩,
    ⟨0x0200, 0x1F00, .always, .dirBad⟩,
    ⟨0x0300, 0x1F00, .always, .len⟩ ]

/-- Rows 12 to 17 of 30_encoding.md R56. -/
def rxRowsBody : List RxRow :=
  [ ⟨0x0400, 0x1F00, .remainingZero, .opcZ⟩,
    ⟨0x0400, 0x1F00, .remainingNonzero, .opcNz⟩,
    ⟨0x0500, 0x1F00, .remainingNotOne, .payMore⟩,
    ⟨0x0500, 0x1F00, .remainingOne, .payLast⟩,
    ⟨0x0600, 0x1F00, .byteIsChecksum, .chkOk⟩,
    ⟨0x0600, 0x1F00, .byteIsNotChecksum, .chkBad⟩ ]

/-- The RX rows in the order listed (30_encoding.md R56). -/
def rxTable : List RxRow := rxRowsPreamble ++ rxRowsHeader ++ rxRowsBody

/-- A row matches a word (30_encoding.md R56). -/
def RxRow.hits (row : RxRow) (regs : CondRegs) (w : RxWord) : Bool :=
  (w &&& row.mask == row.pattern) && row.cond.holds regs (rxByte w)

/-- Decode an RX word: the first row that matches; with no row the word holds a reserved code. -/
def decodeRx (regs : CondRegs) (w : RxWord) : Except DecodeError Instr :=
  match rxTable.find? (fun row => row.hits regs w) with
  | some row => .ok (row.build (rxByte w))
  | none => if rxOp w = 3 then .error .reservedRxop else .error .reservedState

/-- Bits 35:34 of a TX word. -/
def txOp (w : TxWord) : BitVec 2 := w.extractLsb' 34 2

/-- Bits 33:32 of a TX word. -/
def txDir (w : TxWord) : BitVec 2 := w.extractLsb' 32 2

/-- Bits 31:24 of a TX word. -/
def txLen (w : TxWord) : Byte := w.extractLsb' 24 8

/-- Bits 23:16 of a TX word. -/
def txOpcode (w : TxWord) : Byte := w.extractLsb' 16 8

/-- Bits 15:0 of a TX word. -/
def txBufLen (w : TxWord) : BufLen := w.extractLsb' 0 16

/-- `{txop, dir, len, opcode, buf_len}` (30_encoding.md R57). -/
def txWord (txop dir : BitVec 2) (len opcode : Byte) (bufLen : BufLen) : TxWord :=
  txop ++ dir ++ len ++ opcode ++ bufLen

/-- The two ENCODE rows, told apart by a comparison of natural numbers (30_encoding.md R57). -/
def encodeRow (d : Direction) (len opcode : Byte) (bufLen : BufLen) : Instr :=
  if bufLen.toNat = wireSize len.toNat then .encodeOk d len opcode bufLen else .encodeErr d len opcode bufLen

/-- Decode a TX word (30_encoding.md R57, R58). WIRESIZE uses `len` only. -/
def decodeTx (w : TxWord) : Except DecodeError Instr :=
  if txOp w = 0 then .ok (.wiresize (txLen w))
  else if txOp w = 3 then .error .reservedTxop
  else
    match Direction.ofCode (txDir w) with
    | none => .error .noDirection
    | some d =>
      if txOp w = 1 then .ok (.cksum d (txLen w) (txOpcode w))
      else .ok (encodeRow d (txLen w) (txOpcode w) (txBufLen w))

/-- An operation word of either agent. -/
inductive OpWord where
  | rx (w : RxWord)
  | tx (w : TxWord)
  deriving DecidableEq, Repr

/-- Decode a word of either agent; total. -/
def decode (regs : CondRegs) : OpWord → Except DecodeError Instr
  | .rx w => decodeRx regs w
  | .tx w => decodeTx w

/-- The register condition of an operation's row (30_encoding.md R56, column cond). -/
def Instr.regCond (regs : CondRegs) : Instr → Bool
  | .opcZ b => RxCond.remainingZero.holds regs b
  | .opcNz b => RxCond.remainingNonzero.holds regs b
  | .payMore b => RxCond.remainingNotOne.holds regs b
  | .payLast b => RxCond.remainingOne.holds regs b
  | .chkOk b => RxCond.byteIsChecksum.holds regs b
  | .chkBad b => RxCond.byteIsNotChecksum.holds regs b
  | .reset | .idleQuery | .p1Match | .p1Skip _ | .p2Match | .p2Miss _ | .dirTo | .dirFrom | .dirUns | .dirBad _
  | .len _ | .wiresize _ | .cksum _ _ _ | .encodeOk _ _ _ _ | .encodeErr _ _ _ _ => true

/-- The word of an operation (30_encoding.md R56, R57). Bits that the row ignores are written 0. -/
def encode : Instr → OpWord
  | .reset => .rx (rxWord 1 0 0)
  | .idleQuery => .rx (rxWord 2 0 0)
  | .p1Match => .rx (rxWord 0 0 PRE1)
  | .p1Skip b => .rx (rxWord 0 0 b)
  | .p2Match => .rx (rxWord 0 1 PRE2)
  | .p2Miss b => .rx (rxWord 0 1 b)
  | .dirTo => .rx (rxWord 0 2 Direction.toDevice.toByte)
  | .dirFrom => .rx (rxWord 0 2 Direction.fromDevice.toByte)
  | .dirUns => .rx (rxWord 0 2 Direction.unsupported.toByte)
  | .dirBad b => .rx (rxWord 0 2 b)
  | .len b => .rx (rxWord 0 3 b)
  | .opcZ b => .rx (rxWord 0 4 b)
  | .opcNz b => .rx (rxWord 0 4 b)
  | .payMore b => .rx (rxWord 0 5 b)
  | .payLast b => .rx (rxWord 0 5 b)
  | .chkOk b => .rx (rxWord 0 6 b)
  | .chkBad b => .rx (rxWord 0 6 b)
  | .wiresize len => .tx (txWord 0 0 len 0 0)
  | .cksum d len op => .tx (txWord 1 d.code len op 0)
  | .encodeOk d len op n => .tx (txWord 2 d.code len op n)
  | .encodeErr d len op n => .tx (txWord 2 d.code len op n)

/-- The registers a table word is decoded against when no state is given: those that `RxRegs.entered`
(Machine/Fetch.lean) holds in the word's state. A row condition on registers is not in the word, so of two rows
that share their words (OPC.Z and OPC.NZ, PAY.MORE and PAY.LAST) this takes OPC.Z and PAY.MORE; CHK.OK is taken
for the byte 0 (log entry 10). -/
def tableRegs (w : RxWord) : CondRegs :=
  if rxStateField w = 5 then ⟨2, 2⟩ else ⟨0, 0⟩

/-- The operation word that `nbits` bits of `w` are: an RX word in up to 16 bits, a TX word in more; none where a
bit above the word is set. -/
def opWordOfNat (nbits w : Nat) : Option OpWord :=
  if nbits ≤ 16 then
    if w < 2 ^ 13 then some (.rx (BitVec.ofNat 13 w)) else none
  else
    if w < 2 ^ 36 then some (.tx (BitVec.ofNat 36 w)) else none

/-- What the decoder reads from a word numbered as spec/opcode_table.json numbers it. -/
def decodeTableWord (nbits w : Nat) : Option Instr :=
  match opWordOfNat nbits w with
  | none => none
  | some (.rx w) => (decodeRx (tableRegs w) w).toOption
  | some (.tx w) => (decodeTx w).toOption

end Sys2Proof
end

