-- ==== Sys2Proof/Machine/State.lean ====
section
/-! DEFINITION. The state of the block, its results, its stops, and the state after reset. -/

namespace Sys2Proof.Machine

/-- The seven states of the decoder (10_state.md R11). Code 7 is no state and cannot be written down. -/
inductive RxState where
  /-- AwaitingPreamble1. -/
  | p1
  /-- AwaitingPreamble2. -/
  | p2
  /-- AwaitingDirection. -/
  | dir
  /-- AwaitingLength. -/
  | len
  /-- AwaitingOpcode. -/
  | opc
  /-- AwaitingPayload. -/
  | pay
  /-- AwaitingChecksum. -/
  | chk
  deriving DecidableEq, Repr

/-- The direction register: a Direction, or `none`, the spec's cleared value `None` (10_state.md R12). -/
abbrev DirReg := Option Direction

/-- The six registers of the RX agent (10_state.md R10). `payload` is the address space RXBUF with its fill
count (10_state.md R16, R20). -/
structure RxRegs where
  state : RxState
  direction : DirReg
  opcode : Byte
  remaining : Byte
  payload : List Byte
  checksum : Byte
  deriving DecidableEq, Repr

/-- The initial state of the decoder (10_state.md R18). -/
def RxRegs.initial : RxRegs :=
  { state := .p1, direction := none, opcode := 0x00, remaining := 0x00, payload := [], checksum := 0x00 }

/-- A caller's memory: cells by address, strictly rising, no cell equal to `Config.UNWRITTEN`. -/
abbrev Memory := List Host.Cell

/-- The canonical form of a memory. -/
abbrev Memory.WellFormed (m : Memory) : Prop :=
  m.Pairwise (fun x y => x.1 < y.1) ∧ ∀ c ∈ m, c.2 ≠ Config.UNWRITTEN

/-- The result of a `PUSH` (00_scope.md R5). `error` is `Error(ChecksumMismatch{expected, calculated})`, the one
error of the RX agent (60_exceptions.md R112): `expected` is the byte received (90_conflicts.md C6). -/
inductive RxResult where
  | noFrame
  | frame (f : Frame)
  | error (expected calculated : Byte)
  deriving DecidableEq, Repr

/-- The side band of a `PUSH` (40_decoder.md R69). -/
inductive Diag where
  | diagNone
  | badPreamble1
  | badPreamble2
  | badDirection
  deriving DecidableEq, Repr

/-- The result of an `ENCODE` (00_scope.md R5): `error` is `OutputBufferSizeMismatch`, which carries no value
(60_exceptions.md R111). -/
inductive TxResult where
  | ok
  | error
  deriving DecidableEq, Repr

/-- What the last RX operation handed to the caller. The model's own field (log entry 2). -/
inductive RxOutput where
  /-- no result: nothing performed yet, or RESET, which has none. -/
  | none
  /-- the result and side band of a `PUSH`. -/
  | push (r : RxResult) (d : Diag)
  /-- the answer of `IDLE?`. -/
  | idle (b : Bool)
  deriving DecidableEq, Repr

/-- What the last TX operation handed to the caller. The model's own field (log entry 2). -/
inductive TxOutput where
  /-- nothing performed yet. -/
  | none
  /-- the answer of `WIRESIZE`. -/
  | size (n : Nat)
  /-- the answer of `CKSUM`. -/
  | checksum (b : Byte)
  /-- the result of an `ENCODE`. -/
  | encoded (r : TxResult)
  deriving DecidableEq, Repr

/-- The errors that an operation raises (60_exceptions.md R110); both become results of the raising step. -/
inductive BlockError where
  | outputBufferSizeMismatch
  | checksumMismatch (expected calculated : Byte)
  deriving DecidableEq, Repr

/-- An operation as the caller presents it. For an RX operation the caller supplies `rxop` and the byte and the
block supplies the state field (30_encoding.md R56). -/
inductive Request where
  | rx (rxop : BitVec 2) (byte : Byte)
  | tx (word : TxWord)
  deriving DecidableEq, Repr

/-- The two memories of the caller that the block touches (10_state.md R20). -/
inductive CallerSpace where
  | txsrc
  | txbuf
  deriving DecidableEq, Repr

/-- What the outside world does in one step (log entries 1, 4, 5). -/
inductive Input where
  /-- an operation is presented. -/
  | op (r : Request)
  /-- the hardware reset input is asserted, with the operation presented in the same step, if there is one. -/
  | hwReset (collides : Option Request)
  /-- the caller writes one cell of its own memory, between operations. -/
  | callerWrite (space : CallerSpace) (addr : Nat) (v : Byte)
  deriving DecidableEq, Repr

/-- One instance of the block with its caller's memories and its caller's pending inputs. -/
structure State where
  rx : RxRegs
  txsrc : Memory
  txbuf : Memory
  inputs : List Input
  rxOut : RxOutput
  txOut : TxOutput
  deriving DecidableEq, Repr

/-- The reasons a step stops with a fault. -/
inductive Fault where
  /-- Raised by PAY.MORE with `rx.remaining` 0, which no state of 10_state.md R17 has: stuck, never a decrement to
  255 (93_implementation_defined.md U8). Safe. -/
  | payloadCounterZero
  /-- Raised by PAY.MORE and PAY.LAST when the 255 cells of RXBUF are full: the cell written to does not exist
  (10_state.md R20). No state of 10_state.md R17 does this. Safe. -/
  | rxbufFull
  /-- Raised by CHK.OK with the direction register cleared, which no state of 10_state.md R17 has: a Frame result
  has no direction code 0 (93_implementation_defined.md U5). Safe. -/
  | directionMissing
  /-- Raised by a caller's write to a cell of TXSRC or TXBUF that does not exist (10_state.md R20). Safe. -/
  | noSuchCell
  deriving DecidableEq, Repr

/-- The reasons a step has no meaning. -/
inductive Refusal where
  /-- Raised by `exec` for an instruction that has no meaning yet. Safe. -/
  | notModelled (mnemonic : String)
  /-- Raised by the fetch of a word that holds a reserved code (30_encoding.md R58). Safe. -/
  | reservedWord (why : DecodeError)
  /-- Raised by a meaning whose rule's precondition does not hold: no rule gives the class an effect there. The
  step never does this, since it takes the class whose precondition holds (40_decoder.md R67). Safe. -/
  | outsideClass
  deriving DecidableEq, Repr

/-- The machine right after reset: the initial state of 10_state.md R18, the caller's memories with nothing written
(log entry 5), nothing presented (log entry 1) and no result (70_reset_and_hazards.md R130, log entry 2). -/
def State.reset : State :=
  { rx := RxRegs.initial, txsrc := [], txbuf := [], inputs := [], rxOut := .none, txOut := .none }

end Sys2Proof.Machine
end

