-- ==== Sys2Proof/Machine/Flags.lean ====
section
/-! DEFINITION. The one status flag of the block (10_state.md R21). -/

namespace Sys2Proof.Machine

/-- `idle`: the predicate `rx.state == P1`, not a stored bit (10_state.md R21). -/
def State.idle (s : State) : Bool := decide (s.rx.state = .p1)

end Sys2Proof.Machine
end

