-- ==== Sys2Proof/Machine/Memory.lean ====
section
/-! DEFINITION. Single-byte reads and writes of a caller's memory (20_memory.md R32); writes keep the canonical form. -/

namespace Sys2Proof.Machine

/-- `MemRead(space, addr, 1)`. -/
def Memory.read (m : Memory) (a : Nat) : Byte :=
  match m with
  | [] => Config.UNWRITTEN
  | (k, v) :: rest => if k = a then v else Memory.read rest a

/-- Put a cell in front, unless its value is what an unlisted cell reads as. -/
def Memory.consCell (a : Nat) (v : Byte) (m : Memory) : Memory :=
  if v = Config.UNWRITTEN then m else (a, v) :: m

/-- `MemWrite(space, addr, 1, v)`. -/
def Memory.write (m : Memory) (a : Nat) (v : Byte) : Memory :=
  match m with
  | [] => Memory.consCell a v []
  | (k, w) :: rest =>
    if a < k then Memory.consCell a v ((k, w) :: rest)
    else if a = k then Memory.consCell a v rest
    else (k, w) :: Memory.write rest a v

/-- Several writes, in the order of the list. -/
def Memory.writeAll (m : Memory) (stores : List (Nat × Byte)) : Memory :=
  stores.foldl (fun m c => Memory.write m c.1 c.2) m

/-- The cells `base` to `base + n - 1`, read in increasing order. -/
def Memory.readFrom (m : Memory) (base : Nat) : Nat → List Byte
  | 0 => []
  | n + 1 => Memory.read m base :: Memory.readFrom m (base + 1) n

end Sys2Proof.Machine
end

