-- ==== Sys2Proof/Machine/Operands.lean ====
section
/-! DEFINITION. The operands of an operation: the state field and the condition registers of a `PUSH`, the Frame
of a TX operation. -/

namespace Sys2Proof.Machine

/-- The code of a decoder state (10_state.md R11). -/
def RxState.code : RxState → BitVec 3
  | .p1 => 0
  | .p2 => 1
  | .dir => 2
  | .len => 3
  | .opc => 4
  | .pay => 5
  | .chk => 6

/-- The decoder state of a code; code 7 is none (10_state.md R11, 30_encoding.md R58). -/
def RxState.ofCode (c : BitVec 3) : Option RxState :=
  if c = 0 then some .p1
  else if c = 1 then some .p2
  else if c = 2 then some .dir
  else if c = 3 then some .len
  else if c = 4 then some .opc
  else if c = 5 then some .pay
  else if c = 6 then some .chk
  else none

/-- The code of the direction register, 0 when cleared (10_state.md R12). -/
def DirReg.code (d : DirReg) : BitVec 2 :=
  match d with
  | none => 0
  | some d => d.code

/-- The registers that the conditions of the RX table read (30_encoding.md R56). -/
def RxRegs.condRegs (r : RxRegs) : CondRegs := { remaining := r.remaining, checksum := r.checksum }

/-- The RX operation word: the caller's `rxop` and byte with the block's state (30_encoding.md R56). -/
def RxRegs.word (r : RxRegs) (rxop : BitVec 2) (b : Byte) : RxWord := rxWord rxop r.state.code b

/-- The payload operand: the first `len` cells of TXSRC, read in increasing order (10_state.md R20,
20_memory.md R32). -/
def txPayload (len : Byte) (s : State) : List Byte := Memory.readFrom s.txsrc 0 len.toNat

/-- The Frame operand of a TX operation: the fields of the word with the payload in TXSRC (30_encoding.md R57). -/
def txFrame (d : Direction) (len opcode : Byte) (s : State) : Frame :=
  { opcode := opcode, direction := d, payload := txPayload len s }

end Sys2Proof.Machine
end

