-- ==== Sys2Proof/Machine/Ops.lean ====
section
/-! DEFINITION. The shared operations: reset, results, raising an error, taking payload bytes, the checksum loop and
the stores of ENCODE. -/

namespace Sys2Proof.Machine

/-- Replace the RX registers. -/
def State.withRx (s : State) (r : RxRegs) : State := { s with rx := r }

/-- Hand a result of the RX agent to the caller. -/
def State.withRxOut (s : State) (o : RxOutput) : State := { s with rxOut := o }

/-- Hand a result of the TX agent to the caller. -/
def State.withTxOut (s : State) (o : TxOutput) : State := { s with txOut := o }

/-- Replace the content of TXBUF. -/
def State.withTxbuf (s : State) (m : Memory) : State := { s with txbuf := m }

/-- Replace the content of TXSRC. -/
def State.withTxsrc (s : State) (m : Memory) : State := { s with txsrc := m }

/-- Replace the pending inputs. -/
def State.withInputs (s : State) (is : List Input) : State := { s with inputs := is }

/-- `RESET_ALL`: the assignments of 10_state.md R18. -/
def State.resetAll (s : State) : State :=
  s.withRx
    { state := .p1
      direction := none
      opcode := 0x00
      remaining := 0x00
      payload := []
      checksum := 0x00 }

/-- The end of a `PUSH` that answers `NoFrame` with `DiagNone`, with new RX registers. -/
def State.advance (s : State) (r : RxRegs) : State :=
  (s.withRx r).withRxOut (.push .noFrame .diagNone)

/-- A framing violation is absorbed: RESET_ALL, result `NoFrame`, the event on the side band (60_exceptions.md
R113, 40_decoder.md R69). -/
def State.absorb (s : State) (d : Diag) : State :=
  s.resetAll.withRxOut (.push .noFrame d)

/-- Raising an error, for both agents: what 60_exceptions.md R117 says, and nothing else. `ChecksumMismatch` performs
RESET_ALL and is the result of the `PUSH`; `OutputBufferSizeMismatch` changes nothing and is the result of the
ENCODE. There is no return operation: recovery is part of the raising step (60_exceptions.md R119). -/
def State.raise (s : State) (e : BlockError) : State :=
  match e with
  | .checksumMismatch expected calculated =>
    s.resetAll.withRxOut (.push (.error expected calculated) .diagNone)
  | .outputBufferSizeMismatch => s.withTxOut (.encoded .error)

/-- The emission of a Frame: its values are taken before RESET_ALL (40_decoder.md R83). -/
def State.emitFrame (s : State) (d : Direction) : State :=
  s.resetAll.withRxOut
    (.push (.frame { opcode := s.rx.opcode, direction := d, payload := s.rx.payload }) .diagNone)

/-- The register writes of a payload byte: append to RXBUF at the fill count, fold into the checksum, decrement
the counter (40_decoder.md R81, R82). -/
def RxRegs.takePayloadByte (r : RxRegs) (b : Byte) : RxRegs :=
  { r with payload := r.payload ++ [b], checksum := r.checksum ^^^ b, remaining := r.remaining - 1 }

/-- A payload byte and the state after it. The cell written to must be one of the 255 of RXBUF (10_state.md R20). -/
def State.storePayloadByte (s : State) (b : Byte) (next : RxState) : Host.Outcome State Fault Refusal :=
  if s.rx.payload.length < Config.RXBUF_CELLS then
    .next (s.advance { s.rx.takePayloadByte b with state := next })
  else .fault .rxbufFull

/-- The checksum loop: exclusive-or bytes into an accumulator in the order of the list (41_encoder.md R96, R97). -/
def accumulate (acc : Byte) (bytes : List Byte) : Byte := bytes.foldl (fun a v => a ^^^ v) acc

/-- The writes of payload bytes at consecutive cells of TXBUF, in increasing order (41_encoder.md R97). -/
def storesFrom (base : Nat) : List Byte → List (Nat × Byte)
  | [] => []
  | v :: vs => (base, v) :: storesFrom (base + 1) vs

/-- The writes of ENCODE.OK in the order of 41_encoder.md R97: preamble, direction, length, opcode, payload,
checksum. -/
def encodeStores (len : Byte) (f : Frame) : List (Nat × Byte) :=
  [(0, PRE1), (1, PRE2), (2, f.direction.toByte), (3, len), (4, f.opcode)]
    ++ storesFrom 5 f.payload
    ++ [(5 + len.toNat, accumulate (len ^^^ f.opcode) f.payload)]

/-- What a streaming serializer emits for a request, one byte per emission (41_encoder.md R102): the bytes of the
writes of ENCODE.OK in their order, and nothing when the size is refused. -/
def emissions (len : Byte) (f : Frame) (bufLen : BufLen) : List Byte :=
  if bufLen.toNat = wireSize len.toNat then (encodeStores len f).map Prod.snd else []

end Sys2Proof.Machine
end

