-- ==== Sys2Proof/Machine/RxControl.lean ====
section
/-! DEFINITION. The RX operations RESET and IDLE? (40_decoder.md section 9). -/

namespace Sys2Proof.Machine

/-- RESET (40_decoder.md R85): RESET_ALL, legal in every state, no result. -/
def execReset (s : State) : Host.Outcome State Fault Refusal :=
  .next (s.resetAll.withRxOut .none)

/-- IDLE? (40_decoder.md R86): the flag, no state written. -/
def execIdleQuery (s : State) : Host.Outcome State Fault Refusal :=
  .next (s.withRxOut (.idle s.idle))

end Sys2Proof.Machine
end

