-- ==== Sys2Proof/Machine/RxPush.lean ====
section
/-! DEFINITION. The fifteen classes of `PUSH` (40_decoder.md sections 2 to 8), one meaning each. Each tests the
precondition of its rule; outside it no rule gives the class an effect. -/

namespace Sys2Proof.Machine

/-- P1.MATCH (40_decoder.md R70). -/
def execP1Match (s : State) : Host.Outcome State Fault Refusal :=
  if s.rx.state = .p1 then .next (s.advance { s.rx with state := .p2 }) else .refused .outsideClass

/-- P1.SKIP (40_decoder.md R71). -/
def execP1Skip (b : Byte) (s : State) : Host.Outcome State Fault Refusal :=
  if s.rx.state = .p1 ∧ b ≠ PRE1 then .next (s.absorb .badPreamble1) else .refused .outsideClass

/-- P2.MATCH (40_decoder.md R72). -/
def execP2Match (s : State) : Host.Outcome State Fault Refusal :=
  if s.rx.state = .p2 then .next (s.advance { s.rx with state := .dir }) else .refused .outsideClass

/-- P2.MISS (40_decoder.md R73). -/
def execP2Miss (b : Byte) (s : State) : Host.Outcome State Fault Refusal :=
  if s.rx.state = .p2 ∧ b ≠ PRE2 then .next (s.absorb .badPreamble2) else .refused .outsideClass

/-- A direction byte is stored (40_decoder.md R74, R75, R76). -/
def storeDirection (d : Direction) (s : State) : Host.Outcome State Fault Refusal :=
  if s.rx.state = .dir then .next (s.advance { s.rx with direction := some d, state := .len })
  else .refused .outsideClass

/-- DIR.TO (40_decoder.md R74). -/
def execDirTo (s : State) : Host.Outcome State Fault Refusal := storeDirection .toDevice s

/-- DIR.FROM (40_decoder.md R75). -/
def execDirFrom (s : State) : Host.Outcome State Fault Refusal := storeDirection .fromDevice s

/-- DIR.UNS (40_decoder.md R76). -/
def execDirUns (s : State) : Host.Outcome State Fault Refusal := storeDirection .unsupported s

/-- DIR.BAD (40_decoder.md R77). -/
def execDirBad (b : Byte) (s : State) : Host.Outcome State Fault Refusal :=
  if s.rx.state = .dir ∧ Direction.ofByte b = none then .next (s.absorb .badDirection) else .refused .outsideClass

/-- LEN (40_decoder.md R78). -/
def execLen (b : Byte) (s : State) : Host.Outcome State Fault Refusal :=
  if s.rx.state = .len then
    .next (s.advance { s.rx with remaining := b, checksum := s.rx.checksum ^^^ b, state := .opc })
  else .refused .outsideClass

/-- OPC.Z (40_decoder.md R79). -/
def execOpcZ (b : Byte) (s : State) : Host.Outcome State Fault Refusal :=
  if s.rx.state = .opc ∧ s.rx.remaining = 0 then
    .next (s.advance { s.rx with opcode := b, checksum := s.rx.checksum ^^^ b, state := .chk })
  else .refused .outsideClass

/-- OPC.NZ (40_decoder.md R80). -/
def execOpcNz (b : Byte) (s : State) : Host.Outcome State Fault Refusal :=
  if s.rx.state = .opc ∧ s.rx.remaining ≠ 0 then
    .next (s.advance { s.rx with opcode := b, checksum := s.rx.checksum ^^^ b, state := .pay })
  else .refused .outsideClass

/-- PAY.MORE (40_decoder.md R81). With the counter at 0, which no state of 10_state.md R17 has, it is stuck
(93_implementation_defined.md U8, log entry 8). -/
def execPayMore (b : Byte) (s : State) : Host.Outcome State Fault Refusal :=
  if s.rx.state = .pay ∧ s.rx.remaining ≠ 1 then
    if s.rx.remaining = 0 then .fault .payloadCounterZero else s.storePayloadByte b .pay
  else .refused .outsideClass

/-- PAY.LAST (40_decoder.md R82). -/
def execPayLast (b : Byte) (s : State) : Host.Outcome State Fault Refusal :=
  if s.rx.state = .pay ∧ s.rx.remaining = 1 then s.storePayloadByte b .chk else .refused .outsideClass

/-- CHK.OK (40_decoder.md R83). With the direction cleared, which no state of 10_state.md R17 has, there is no
Frame to emit (93_implementation_defined.md U5, log entry 9). -/
def execChkOk (b : Byte) (s : State) : Host.Outcome State Fault Refusal :=
  if s.rx.state = .chk ∧ b = s.rx.checksum then
    match s.rx.direction with
    | some d => .next (s.emitFrame d)
    | none => .fault .directionMissing
  else .refused .outsideClass

/-- CHK.BAD (40_decoder.md R84): `expected` is the byte received, `calculated` the accumulator. -/
def execChkBad (b : Byte) (s : State) : Host.Outcome State Fault Refusal :=
  if s.rx.state = .chk ∧ b ≠ s.rx.checksum then .next (s.raise (.checksumMismatch b s.rx.checksum))
  else .refused .outsideClass

end Sys2Proof.Machine
end

