-- ==== Sys2Proof/Machine/Tx.lean ====
section
/-! DEFINITION. The TX operations (41_encoder.md section 1). -/

namespace Sys2Proof.Machine

/-- WIRESIZE (41_encoder.md R95): `6 + n` in the natural numbers. -/
def execWiresize (len : Byte) (s : State) : Host.Outcome State Fault Refusal :=
  .next (s.withTxOut (.size (wireSize len.toNat)))

/-- CKSUM (41_encoder.md R96): the accumulator loop. The direction is not an input of the result. -/
def execCksum (_dir : Direction) (len opcode : Byte) (s : State) : Host.Outcome State Fault Refusal :=
  .next (s.withTxOut (.checksum (accumulate (0x00 ^^^ len ^^^ opcode) (txPayload len s))))

/-- ENCODE.OK (41_encoder.md R97): every cell of the buffer is written, in increasing order. -/
def execEncodeOk (dir : Direction) (len opcode : Byte) (bufLen : BufLen) (s : State) :
    Host.Outcome State Fault Refusal :=
  if bufLen.toNat = wireSize len.toNat then
    .next ((s.withTxbuf (Memory.writeAll s.txbuf (encodeStores len (txFrame dir len opcode s)))).withTxOut
      (.encoded .ok))
  else .refused .outsideClass

/-- ENCODE.ERR (41_encoder.md R98): nothing is read or written. -/
def execEncodeErr (_dir : Direction) (len _opcode : Byte) (bufLen : BufLen) (s : State) :
    Host.Outcome State Fault Refusal :=
  if bufLen.toNat ≠ wireSize len.toNat then .next (s.raise .outputBufferSizeMismatch)
  else .refused .outsideClass

end Sys2Proof.Machine
end

