-- ==== Sys2Proof/Machine/Dispatch.lean ====
section
/-! DEFINITION. The dispatch: one arm per operation, each one direct call of its meaning. -/

namespace Sys2Proof.Machine

def exec (i : Instr) (s : State) : Host.Outcome State Fault Refusal :=
  match i with
  | .reset => Sys2Proof.Machine.execReset s
  | .idleQuery => Sys2Proof.Machine.execIdleQuery s
  | .p1Match => Sys2Proof.Machine.execP1Match s
  | .p1Skip b => Sys2Proof.Machine.execP1Skip b s
  | .p2Match => Sys2Proof.Machine.execP2Match s
  | .p2Miss b => Sys2Proof.Machine.execP2Miss b s
  | .dirTo => Sys2Proof.Machine.execDirTo s
  | .dirFrom => Sys2Proof.Machine.execDirFrom s
  | .dirUns => Sys2Proof.Machine.execDirUns s
  | .dirBad b => Sys2Proof.Machine.execDirBad b s
  | .len b => Sys2Proof.Machine.execLen b s
  | .opcZ b => Sys2Proof.Machine.execOpcZ b s
  | .opcNz b => Sys2Proof.Machine.execOpcNz b s
  | .payMore b => Sys2Proof.Machine.execPayMore b s
  | .payLast b => Sys2Proof.Machine.execPayLast b s
  | .chkOk b => Sys2Proof.Machine.execChkOk b s
  | .chkBad b => Sys2Proof.Machine.execChkBad b s
  | .wiresize len => Sys2Proof.Machine.execWiresize len s
  | .cksum dir len opcode => Sys2Proof.Machine.execCksum dir len opcode s
  | .encodeOk dir len opcode bufLen => Sys2Proof.Machine.execEncodeOk dir len opcode bufLen s
  | .encodeErr dir len opcode bufLen => Sys2Proof.Machine.execEncodeErr dir len opcode bufLen s

end Sys2Proof.Machine
end

