-- ==== Sys2Proof/Machine/Fetch.lean ====
section
/-! DEFINITION. What one step takes from the outside world: the next input of the list, decoded. The block fetches
no instructions (10_state.md R19); an operation is presented to it (40_decoder.md R65). -/

namespace Sys2Proof.Machine

/-- What the next input asks of the machine. -/
inductive Fetched where
  /-- an operation, decoded, with the state it runs in. -/
  | instr (i : Instr) (s : State)
  /-- the step ends here. -/
  | done (o : Host.Outcome State Fault Refusal)

/-- Decode a presented operation: the block supplies the state field of an RX word and the registers that the
conditions of the table read (30_encoding.md R56). -/
def Request.decode (r : Request) (regs : RxRegs) : Except DecodeError Instr :=
  match r with
  | .rx rxop b => decodeRx regs.condRegs (regs.word rxop b)
  | .tx w => decodeTx w

/-- How many cells a caller's memory has (10_state.md R20). -/
def CallerSpace.cells : CallerSpace → Nat
  | .txsrc => Config.TXSRC_CELLS
  | .txbuf => Config.TXBUF_CELLS

/-- The caller writes one cell of its own memory (70_reset_and_hazards.md R134; log entry 5). -/
def State.callerWrite (s : State) (space : CallerSpace) (a : Nat) (v : Byte) : Host.Outcome State Fault Refusal :=
  if a < space.cells then
    match space with
    | .txsrc => .next (s.withTxsrc (Memory.write s.txsrc a v))
    | .txbuf => .next (s.withTxbuf (Memory.write s.txbuf a v))
  else .fault .noSuchCell

/-- Take one input, in the state that no longer lists it. The hardware reset has exactly the effect of RESET, and
wins over an operation presented in the same step (70_reset_and_hazards.md R130, 60_exceptions.md R116). -/
def State.take (s : State) (input : Input) : Fetched :=
  match input with
  | .op r =>
    match r.decode s.rx with
    | .ok i => .instr i s
    | .error e => .done (.refused (.reservedWord e))
  | .hwReset _ => .done (execReset s)
  | .callerWrite space a v => .done (s.callerWrite space a v)

/-- The next input of the list. With nothing presented the caller pauses and nothing changes (40_decoder.md R65;
log entry 3). -/
def State.fetch (s : State) : Fetched :=
  match s.inputs with
  | [] => .done (.next s)
  | input :: rest => (s.withInputs rest).take input

/-- The decoder in a given state, with the least frame in progress that 10_state.md R17 allows there: direction
ToDevice, opcode 0, no payload byte yet, and in PAY two bytes still to come (log entry 10). -/
def RxRegs.entered (st : RxState) : RxRegs :=
  match st with
  | .p1 => RxRegs.initial
  | .p2 => { RxRegs.initial with state := .p2 }
  | .dir => { RxRegs.initial with state := .dir }
  | .len => { RxRegs.initial with state := .len, direction := some .toDevice }
  | .opc => { RxRegs.initial with state := .opc, direction := some .toDevice }
  | .pay => { RxRegs.initial with state := .pay, direction := some .toDevice, remaining := 2, checksum := 2 }
  | .chk => { RxRegs.initial with state := .chk, direction := some .toDevice }

/-- A request that the decoder refuses, for words that no request can spell: `rxop` 3. -/
def Request.reserved : Request := .rx 3 0

/-- Present an RX word. The state field of a `PUSH` word is the block's, so the decoder is put in that state if it is
not there already (log entry 10). Code 7 names no state: the word is presented as a reserved one. -/
def State.presentRxWord (s : State) (w : RxWord) : State :=
  let s' := s.withInputs (.op (.rx (rxOp w) (rxByte w)) :: s.inputs)
  if rxOp w = 0 then
    match RxState.ofCode (rxStateField w) with
    | some st => if s.rx.state = st then s' else s'.withRx (RxRegs.entered st)
    | none => s.withInputs (.op Request.reserved :: s.inputs)
  else s'

/-- Present an operation word numbered as the opcode table numbers it, as the next input. -/
def State.presentWord (s : State) (nbits w : Nat) : State :=
  match opWordOfNat nbits w with
  | some (.rx w) => s.presentRxWord w
  | some (.tx w) => s.withInputs (.op (.tx w) :: s.inputs)
  | none => s.withInputs (.op Request.reserved :: s.inputs)

end Sys2Proof.Machine
end

