-- ==== Sys2Proof/Machine/Step.lean ====
section
/-! DEFINITION. One step: take the next input; run the operation it decodes to. -/

namespace Sys2Proof.Machine

/-- One atomic step (20_memory.md R36). -/
def step (s : State) : Host.Outcome State Fault Refusal :=
  match s.fetch with
  | .instr i s' => exec i s'
  | .done o => o

/-- The state whose next step runs the operation word `w` (log entry 10). -/
def State.withFetchWord (s : State) (nbits w : Nat) : State := s.presentWord nbits w

end Sys2Proof.Machine
end

