-- ==== Sys2Proof/Machine/Results.lean ====
section
/-! DEFINITION. The encodings of results (30_encoding.md R59) and the error taxonomy with its codes
(60_exceptions.md R110). -/

namespace Sys2Proof.Machine

/-- A field of an encoded result: a 2-bit code or a byte. -/
inductive ResultField where
  | code (c : BitVec 2)
  | byte (b : Byte)
  deriving DecidableEq, Repr

/-- The fields of an RX result in the order of 30_encoding.md R59: the kind first. -/
def RxResult.encode : RxResult → List ResultField
  | .noFrame => [.code 0]
  | .frame f => .code 1 :: .byte f.opcode :: .code f.direction.code :: .byte f.lenByte :: f.payload.map .byte
  | .error expected calculated => [.code 2, .byte expected, .byte calculated]

/-- The bytes of a list of byte fields; none if a field is a code. -/
def fieldBytes : List ResultField → Option (List Byte)
  | [] => some []
  | .byte b :: rest => (fieldBytes rest).map (b :: ·)
  | .code _ :: _ => none

/-- The Frame of the fields after kind 1; none when the direction code is 0 or the payload has not `len` bytes. -/
def decodeFrameFields (opcode : Byte) (dir : BitVec 2) (len : Byte) (fields : List ResultField) : Option RxResult :=
  match Direction.ofCode dir, fieldBytes fields with
  | some d, some p =>
    if p.length = len.toNat then some (.frame { opcode := opcode, direction := d, payload := p }) else none
  | _, _ => none

/-- The RX result of a list of fields; kind 3 and direction code 0 are refused (30_encoding.md R58). -/
def RxResult.decode : List ResultField → Option RxResult
  | [.code k] => if k = 0 then some .noFrame else none
  | [.code k, .byte e, .byte c] => if k = 2 then some (.error e c) else none
  | .code k :: .byte op :: .code d :: .byte n :: rest =>
    if k = 1 then decodeFrameFields op d n rest else none
  | _ => none

/-- The code of the side band (30_encoding.md R59). -/
def Diag.code : Diag → BitVec 2
  | .diagNone => 0
  | .badPreamble1 => 1
  | .badPreamble2 => 2
  | .badDirection => 3

/-- The code of a TX result, one bit (30_encoding.md R59). -/
def TxResult.code : TxResult → BitVec 1
  | .ok => 0
  | .error => 1

/-- The error taxonomy (60_exceptions.md R110). The last four are listed and never produced: no value of `RxResult`
or `TxResult` is one of them (60_exceptions.md R113). -/
inductive ErrorKind where
  | outputBufferSizeMismatch
  | checksumMismatch
  | invalidPreamble1
  | invalidPreamble2
  | invalidDirection
  | invalidLength
  deriving DecidableEq, Repr

/-- The cause codes; 0 is no error (60_exceptions.md R110). -/
def ErrorKind.code : ErrorKind → Nat
  | .outputBufferSizeMismatch => 1
  | .checksumMismatch => 2
  | .invalidPreamble1 => 3
  | .invalidPreamble2 => 4
  | .invalidDirection => 5
  | .invalidLength => 6

/-- The kind of an error that an operation raises. -/
def BlockError.kind : BlockError → ErrorKind
  | .outputBufferSizeMismatch => .outputBufferSizeMismatch
  | .checksumMismatch _ _ => .checksumMismatch

/-- The cause code of an RX result (60_exceptions.md R110). -/
def RxResult.causeCode : RxResult → Nat
  | .noFrame => 0
  | .frame _ => 0
  | .error e c => (BlockError.checksumMismatch e c).kind.code

/-- The cause code of a TX result (60_exceptions.md R110). -/
def TxResult.causeCode : TxResult → Nat
  | .ok => 0
  | .error => BlockError.outputBufferSizeMismatch.kind.code

/-- The member of the framing-validity family whose condition a side-band event stands for; none is raised
(60_exceptions.md R110, R113). -/
def Diag.absorbed : Diag → Option ErrorKind
  | .diagNone => none
  | .badPreamble1 => some .invalidPreamble1
  | .badPreamble2 => some .invalidPreamble2
  | .badDirection => some .invalidDirection

end Sys2Proof.Machine
end

