-- ==== Sys2Proof/Machine/Trace.lean ====
section
/-! DEFINITION. The six operations as a caller presents them (30_encoding.md R55), the pseudo-operations, and the
trace notation (30_encoding.md R60). -/

namespace Sys2Proof.Machine

/-- The six operations of the block with their operands (30_encoding.md R55). -/
inductive Operation where
  | push (b : Byte)
  | reset
  | idleQuery
  | wiresize (n : Byte)
  | cksum (f : Frame)
  | encode (f : Frame) (bufLen : Nat)
  deriving DecidableEq, Repr

/-- `PUSH b` as an input. -/
def pushInput (b : Byte) : Input := .op (.rx 0 b)

/-- `FEED [b0, ..., bk]`: one `PUSH` a byte, in order (30_encoding.md R60). -/
def feedInputs (bytes : List Byte) : List Input := bytes.map pushInput

/-- The caller puts a payload into TXSRC, cell by cell from index 0 (10_state.md R20). -/
def payloadInputs (payload : List Byte) : List Input :=
  (storesFrom 0 payload).map (fun c => .callerWrite .txsrc c.1 c.2)

/-- What a caller presents for an operation. A sequence of more than 255 bytes is no Frame, and a `buf_len` of
`BUFLEN_W` bits or more cannot be presented: neither has an operation (93_implementation_defined.md U1, 92_eei_decisions.md
D13). -/
def Operation.inputs (o : Operation) : Option (List Input) :=
  match o with
  | .push b => some [pushInput b]
  | .reset => some [.op (.rx 1 0)]
  | .idleQuery => some [.op (.rx 2 0)]
  | .wiresize n => some [.op (.tx (txWord 0 0 n 0 0))]
  | .cksum f =>
    if f.WellFormed then
      some (payloadInputs f.payload ++ [.op (.tx (txWord 1 f.direction.code f.lenByte f.opcode 0))])
    else none
  | .encode f bufLen =>
    if f.WellFormed ∧ bufLen < 2 ^ Config.BUFLEN_W then
      some (payloadInputs f.payload
        ++ [.op (.tx (txWord 2 f.direction.code f.lenByte f.opcode (BitVec.ofNat 16 bufLen)))])
    else none

/-- The second half of `ROUNDTRIP d, op, p`: `FEED` of the bytes left in TXBUF (30_encoding.md R60). -/
def roundTripFeed (n : Nat) (s : State) : List Input := feedInputs (Memory.readFrom s.txbuf 0 (wireSize n))

/-- A hexadecimal digit, upper case. -/
def hexDigit (n : Nat) : Char := if n < 10 then Char.ofNat (48 + n) else Char.ofNat (55 + n)

/-- A byte in the notation `0xBE`. -/
def renderByte (b : Byte) : List Char := ['0', 'x', hexDigit (b.toNat / 16), hexDigit (b.toNat % 16)]

/-- Pieces with a separator between them. -/
def renderJoin (sep : List Char) : List (List Char) → List Char
  | [] => []
  | [x] => x
  | x :: xs => x ++ sep ++ renderJoin sep xs

/-- The wire character of a Direction. -/
def renderDirection (d : Direction) : List Char := [Char.ofNat d.toByte.toNat]

/-- The operands `<, 0x02, [0xBE, 0xEF]` of a Frame. -/
def renderFrameOperands (f : Frame) : List Char :=
  renderDirection f.direction ++ ", ".toList ++ renderByte f.opcode ++ ", [".toList
    ++ renderJoin ", ".toList (f.payload.map renderByte) ++ "]".toList

/-- One operation on one line (30_encoding.md R60). -/
def Operation.render : Operation → List Char
  | .push b => "PUSH ".toList ++ renderByte b
  | .reset => "RESET".toList
  | .idleQuery => "IDLE?".toList
  | .wiresize n => "WIRESIZE ".toList ++ Nat.toDigits 10 n.toNat
  | .cksum f => "CKSUM ".toList ++ renderFrameOperands f
  | .encode f n => "ENCODE ".toList ++ renderFrameOperands f ++ ", ".toList ++ Nat.toDigits 10 n

/-- Text between braces. -/
def renderBraces (inner : List Char) : List Char := Char.ofNat 123 :: inner ++ [Char.ofNat 125]

/-- A result as it stands after `=>` (30_encoding.md R60). -/
def RxResult.render : RxResult → List Char
  | .noFrame => "NoFrame".toList
  | .frame f =>
    "Frame".toList ++ renderBraces ("op=".toList ++ renderByte f.opcode ++ ", dir=".toList
      ++ renderDirection f.direction ++ ", payload=[".toList ++ renderJoin ",".toList (f.payload.map renderByte)
      ++ "]".toList)
  | .error e c =>
    "Error(ChecksumMismatch".toList ++ renderBraces ("expected=".toList ++ renderByte e ++ ", calculated=".toList
      ++ renderByte c) ++ ")".toList

end Sys2Proof.Machine
end

