-- ==== Sys2Proof/Safety.lean ====
section
/-! DEFINITION. What claims about the block are made of: the state invariants of 10_state.md R17, the
preconditions of the rules, and runs over byte streams. -/

namespace Sys2Proof

/-- The operations of the RX agent; the others are the TX agent's (30_encoding.md R55). -/
def Instr.isRx : Instr → Bool
  | .reset | .idleQuery | .p1Match | .p1Skip _ | .p2Match | .p2Miss _ | .dirTo | .dirFrom | .dirUns | .dirBad _
  | .len _ | .opcZ _ | .opcNz _ | .payMore _ | .payLast _ | .chkOk _ | .chkBad _ => true
  | .wiresize _ | .cksum _ _ _ | .encodeOk _ _ _ _ | .encodeErr _ _ _ _ => false

namespace Machine

/-- The declared length of the frame in progress, which is not stored (10_state.md R22 (b)). -/
def RxRegs.declaredLength (r : RxRegs) : Nat := r.payload.length + r.remaining.toNat

/-- The running checksum of a frame in progress whose opcode has been read (10_state.md R15, R17). -/
def RxRegs.foldSoFar (r : RxRegs) : Byte :=
  wireChecksum (BitVec.ofNat 8 r.declaredLength) r.opcode r.payload

/-- The state invariants of the decoder, one row of the table of 10_state.md R17 for each state. -/
def RxRegs.Inv (r : RxRegs) : Prop :=
  match r.state with
  | .p1 | .p2 | .dir => r = { RxRegs.initial with state := r.state }
  | .len => r.direction ≠ none ∧ r.opcode = 0 ∧ r.remaining = 0 ∧ r.payload = [] ∧ r.checksum = 0
  | .opc => r.direction ≠ none ∧ r.opcode = 0 ∧ r.payload = [] ∧ r.checksum = r.remaining
  | .pay => r.direction ≠ none ∧ 1 ≤ r.remaining.toNat ∧ r.declaredLength ≤ 255 ∧ r.checksum = r.foldSoFar
  | .chk => r.direction ≠ none ∧ r.remaining = 0 ∧ r.declaredLength ≤ 255 ∧ r.checksum = r.foldSoFar

/-- A caller's memory in canonical form, with no cell outside its address space. -/
structure Memory.Within (m : Memory) (cells : Nat) : Prop where
  canonical : Memory.WellFormed m
  inRange : ∀ c ∈ m, c.1 < cells

/-- The invariant of the machine. -/
structure State.Inv (s : State) : Prop where
  rx : s.rx.Inv
  txsrc : Memory.Within s.txsrc Config.TXSRC_CELLS
  txbuf : Memory.Within s.txbuf Config.TXBUF_CELLS
  /-- a Frame handed out is a Frame: at most 255 payload bytes (00_scope.md R5). -/
  emitted : ∀ f d, s.rxOut = .push (.frame f) d → f.WellFormed

/-- The precondition of the rule of an operation (40_decoder.md R70 to R86, 41_encoder.md R95 to R98). -/
def precondition (i : Instr) (r : RxRegs) : Bool :=
  match i with
  | .reset | .idleQuery => true
  | .p1Match => decide (r.state = .p1)
  | .p1Skip b => decide (r.state = .p1 ∧ b ≠ 0x24)
  | .p2Match => decide (r.state = .p2)
  | .p2Miss b => decide (r.state = .p2 ∧ b ≠ 0x4D)
  | .dirTo | .dirFrom | .dirUns => decide (r.state = .dir)
  | .dirBad b => decide (r.state = .dir ∧ b ≠ 0x3C ∧ b ≠ 0x3E ∧ b ≠ 0x21)
  | .len _ => decide (r.state = .len)
  | .opcZ _ => decide (r.state = .opc ∧ r.remaining = 0)
  | .opcNz _ => decide (r.state = .opc ∧ r.remaining ≠ 0)
  | .payMore _ => decide (r.state = .pay ∧ 2 ≤ r.remaining.toNat)
  | .payLast _ => decide (r.state = .pay ∧ r.remaining = 1)
  | .chkOk b => decide (r.state = .chk ∧ b = r.checksum)
  | .chkBad b => decide (r.state = .chk ∧ b ≠ r.checksum)
  | .wiresize _ | .cksum _ _ _ => true
  | .encodeOk _ n _ bufLen => decide (bufLen.toNat = 6 + n.toNat)
  | .encodeErr _ n _ bufLen => decide (bufLen.toNat ≠ 6 + n.toNat)

/-- A state with an operation presented before its other inputs. -/
def State.present (s : State) (r : Request) : State := { s with inputs := .op r :: s.inputs }

/-- `FEED` (30_encoding.md R60): present one `PUSH` after another and collect the results; none if a step stops. -/
def feed : List Byte → State → Option (List RxOutput × State)
  | [], s => some ([], s)
  | b :: bs, s =>
    match step (s.present (.rx 0 b)) with
    | .next t => (feed bs t).map (fun p => (t.rxOut :: p.1, p.2))
    | .fault _ => none
    | .refused _ => none

/-- The most bytes after which the decoder is back in `P1` (60_exceptions.md R120, 40_decoder.md R92). -/
def RxRegs.bytesToIdle (r : RxRegs) : Nat :=
  match r.state with
  | .p1 => 0
  | .p2 => 260
  | .dir => 259
  | .len => 258
  | .opc => r.remaining.toNat + 2
  | .pay => r.remaining.toNat + 1
  | .chk => 1

/-- The result `NoFrame` without an event. -/
abbrev quiet : RxOutput := .push .noFrame .diagNone

/-- Some `NoFrame` result, with or without an event. -/
def RxOutput.isNoFrame : RxOutput → Bool
  | .push .noFrame _ => true
  | .push (.frame _) _ => false
  | .push (.error _ _) _ => false
  | .none => false
  | .idle _ => false

end Machine

end Sys2Proof
end

