-- ==== Sys2Proof/Certificates/Slice0/Obligations.lean ====
section
/-! DEFINITION. The statements for the provers. Each docstring names the rule of spec/ it formalises. A statement
whose OBLIGATIONS.json entry has basis 'derived' rests on an inference or a decision of the spec, or on a choice of
the model that its docstring names. -/

open Sys2Proof Sys2Proof.Machine

/-! ## Encodings -/

/-- Operation words written out from the tables of 30_encoding.md (95_test_vectors.md V16, V24) decode to the
operations they stand for. -/
def Obligations.SampleWordsDecode : Prop :=
  decodeRx ⟨0, 0⟩ 0x0BFF = .ok .reset ∧ decodeRx ⟨0, 0⟩ 0x1234 = .ok .idleQuery ∧
  decodeRx ⟨0, 0⟩ 0x0024 = .ok .p1Match ∧ decodeRx ⟨0, 0⟩ 0x0025 = .ok (.p1Skip 0x25) ∧
  decodeRx ⟨0, 0⟩ 0x014D = .ok .p2Match ∧ decodeRx ⟨0, 0⟩ 0x0124 = .ok (.p2Miss 0x24) ∧
  decodeRx ⟨0, 0⟩ 0x023C = .ok .dirTo ∧ decodeRx ⟨0, 0⟩ 0x023E = .ok .dirFrom ∧
  decodeRx ⟨0, 0⟩ 0x0221 = .ok .dirUns ∧ decodeRx ⟨0, 0⟩ 0x023D = .ok (.dirBad 0x3D) ∧
  decodeRx ⟨0, 0⟩ 0x03FF = .ok (.len 0xFF) ∧ decodeRx ⟨0, 0⟩ 0x0464 = .ok (.opcZ 0x64) ∧
  decodeRx ⟨2, 0⟩ 0x0402 = .ok (.opcNz 0x02) ∧ decodeRx ⟨2, 0⟩ 0x0524 = .ok (.payMore 0x24) ∧
  decodeRx ⟨1, 0⟩ 0x0524 = .ok (.payLast 0x24) ∧ decodeRx ⟨0, 0x51⟩ 0x0651 = .ok (.chkOk 0x51) ∧
  decodeRx ⟨0, 0x51⟩ 0x0650 = .ok (.chkBad 0x50) ∧
  decodeTx 0x0FF000000 = .ok (.wiresize 0xFF) ∧ decodeTx 0x502020000 = .ok (.cksum .toDevice 2 2) ∧
  decodeTx 0xB01FF0007 = .ok (.encodeOk .unsupported 1 0xFF 7) ∧
  decodeTx 0x902020007 = .ok (.encodeErr .toDevice 2 2 7)

/-- Decoding the word of an operation gives the operation back: every well-formed operation, every operand, every
value of the registers under which its row's condition holds (30_encoding.md section 5). -/
def Obligations.DecodeEncodeAgree : Prop :=
  ∀ (regs : CondRegs) (i : Instr), i.WellFormed → i.regCond regs = true → decode regs (encode i) = .ok i

/-- Encoding what a word decodes to gives the word back, but for the bits that its row ignores; and the operation is
well-formed and its row's condition holds (30_encoding.md section 5). That the encoder writes 0 in the ignored bits is
the model's choice (log entry 12, DESIGN CHOICE): the spec gives no encoder and says of these bits only that they are
ignored, so the clauses with a mask rest on that choice. -/
def Obligations.EncodeDecodeAgree : Prop :=
  ∀ (regs : CondRegs) (i : Instr),
    (∀ w : RxWord, decodeRx regs w = .ok i →
      i.WellFormed ∧ i.regCond regs = true ∧
      (rxOp w = 0 → encode i = .rx w) ∧ (rxOp w ≠ 0 → encode i = .rx (w &&& 0x1800))) ∧
    (∀ w : TxWord, decodeTx w = .ok i →
      i.WellFormed ∧
      (txOp w = 0 → encode i = .tx (w &&& 0x0FF000000)) ∧
      (txOp w = 1 → encode i = .tx (w &&& 0xFFFFF0000)) ∧
      (txOp w = 2 → encode i = .tx w))

/-- 40_decoder.md R67: a `PUSH` is interpreted by exactly one class, picked by the state, the byte, and the counter
or the checksum at the start of the step. The word is the one of 30_encoding.md R56. -/
def Obligations.PushDispatch : Prop :=
  ∀ (r : RxRegs) (b : Byte),
    decodeRx r.condRegs (r.word 0 b) = .ok (match r.state with
      | .p1 => if b = 0x24 then Instr.p1Match else .p1Skip b
      | .p2 => if b = 0x4D then .p2Match else .p2Miss b
      | .dir => if b = 0x3C then .dirTo else if b = 0x3E then .dirFrom else if b = 0x21 then .dirUns else .dirBad b
      | .len => .len b
      | .opc => if r.remaining = 0 then .opcZ b else .opcNz b
      | .pay => if r.remaining = 1 then .payLast b else .payMore b
      | .chk => if b = r.checksum then .chkOk b else .chkBad b)

/-- 30_encoding.md R58: the reserved codes are refused, each by its name. -/
def Obligations.ReservedCodesRefused : Prop :=
  (∀ regs w, rxOp w = 3 → decodeRx regs w = .error .reservedRxop) ∧
  (∀ regs w, rxOp w = 0 → rxStateField w = 7 → decodeRx regs w = .error .reservedState) ∧
  (∀ w, txOp w = 3 → decodeTx w = .error .reservedTxop) ∧
  (∀ w, txOp w = 1 ∨ txOp w = 2 → txDir w = 0 → decodeTx w = .error .noDirection) ∧
  (∀ fields, RxResult.decode (.code 3 :: fields) = none)

/-- 30_encoding.md R48: `to_byte` is total and injective, `from_byte` is its partial inverse, and the register codes. -/
def Obligations.DirectionByteMap : Prop :=
  Direction.toDevice.toByte = 0x3C ∧ Direction.fromDevice.toByte = 0x3E ∧ Direction.unsupported.toByte = 0x21 ∧
  Direction.toDevice.code = 1 ∧ Direction.fromDevice.code = 2 ∧ Direction.unsupported.code = 3 ∧
  (∀ d e : Direction, d.toByte = e.toByte → d = e) ∧
  (∀ d : Direction, Direction.ofByte d.toByte = some d) ∧
  (∀ b : Byte, b ≠ 0x3C → b ≠ 0x3E → b ≠ 0x21 → Direction.ofByte b = none)

/-- 30_encoding.md R59: the fields of each result, the codes of the side band and of the TX result, and that
decoding a result's fields gives the result back (a Frame result holds a Frame). -/
def Obligations.ResultEncoding : Prop :=
  RxResult.encode .noFrame = [.code 0] ∧
  (∀ f : Frame, RxResult.encode (.frame f) =
    .code 1 :: .byte f.opcode :: .code f.direction.code :: .byte (BitVec.ofNat 8 f.payload.length) ::
      f.payload.map .byte) ∧
  (∀ e c, RxResult.encode (.error e c) = [.code 2, .byte e, .byte c]) ∧
  Diag.diagNone.code = 0 ∧ Diag.badPreamble1.code = 1 ∧ Diag.badPreamble2.code = 2 ∧ Diag.badDirection.code = 3 ∧
  TxResult.ok.code = 0 ∧ TxResult.error.code = 1 ∧
  (∀ r : RxResult, (∀ f, r = .frame f → f.WellFormed) → RxResult.decode r.encode = some r)

/-! ## The step -/

/-- A step takes the oldest input: a presented operation that decodes runs in the state without that input, one that
does not is refused. The decoder is the one of 30_encoding.md R56, R57 with the block's own state field. -/
def Obligations.StepRunsDecodedOperation : Prop :=
  ∀ (s : State) (rest : List Input),
    (∀ rxop b i, s.inputs = .op (.rx rxop b) :: rest →
      decodeRx ⟨s.rx.remaining, s.rx.checksum⟩ (rxWord rxop s.rx.state.code b) = .ok i →
      step s = exec i { s with inputs := rest }) ∧
    (∀ rxop b e, s.inputs = .op (.rx rxop b) :: rest →
      decodeRx ⟨s.rx.remaining, s.rx.checksum⟩ (rxWord rxop s.rx.state.code b) = .error e →
      step s = .refused (.reservedWord e)) ∧
    (∀ w i, s.inputs = .op (.tx w) :: rest → decodeTx w = .ok i → step s = exec i { s with inputs := rest }) ∧
    (∀ w e, s.inputs = .op (.tx w) :: rest → decodeTx w = .error e → step s = .refused (.reservedWord e))

/-- The hardware reset has exactly the effect of RESET, and wins over an operation presented in the same step
(92_eei_decisions.md D7, D8; log entry 4). -/
def Obligations.HardwareResetWins : Prop :=
  ∀ (s : State) (rest : List Input) (c : Option Request), s.inputs = .hwReset c :: rest →
    step s = exec .reset { s with inputs := rest } ∧
    step s = .next { s with inputs := rest, rx := ⟨.p1, none, 0, 0, [], 0⟩, rxOut := .none }

/-- With nothing presented the caller pauses and nothing changes: the model's reading of "Between two operations the
RX state does not change" (log entry 3). -/
def Obligations.PauseChangesNothing : Prop :=
  ∀ s : State, s.inputs = [] → step s = .next s

/-- A caller's write to its own memory changes one cell and nothing else; a cell that does not exist stops the machine
(log entry 5). -/
def Obligations.CallerWritesOneCell : Prop :=
  ∀ (s : State) (rest : List Input) (a : Nat) (v : Byte), s.Inv →
    (s.inputs = .callerWrite .txsrc a v :: rest → a < 255 →
      ∃ m, step s = .next { s with inputs := rest, txsrc := m } ∧ Memory.read m a = v ∧
        ∀ b, b ≠ a → Memory.read m b = Memory.read s.txsrc b) ∧
    (s.inputs = .callerWrite .txbuf a v :: rest → a < 65535 →
      ∃ m, step s = .next { s with inputs := rest, txbuf := m } ∧ Memory.read m a = v ∧
        ∀ b, b ≠ a → Memory.read m b = Memory.read s.txbuf b) ∧
    (s.inputs = .callerWrite .txsrc a v :: rest → 255 ≤ a → step s = .fault .noSuchCell) ∧
    (s.inputs = .callerWrite .txbuf a v :: rest → 65535 ≤ a → step s = .fault .noSuchCell)

/-- Operations run in the order presented, each in the state the one before left (20_memory.md section 6): steps over
a queue of bytes are the bytes fed one by one, and feeding splits at any point. -/
def Obligations.QueuedBytesRunInOrder : Prop :=
  (∀ (s t : State) (bs : List Byte) (outs : List RxOutput), feed bs s = some (outs, t) →
    Host.Core.run Sys2Proof.core bs.length { s with inputs := feedInputs bs ++ s.inputs } = .next t) ∧
  (∀ (s : State) (bs cs : List Byte), feed (bs ++ cs) s =
    (feed bs s).bind fun p => (feed cs p.2).map fun q => (p.1 ++ q.1, q.2))

/-- An operation word placed as the next input runs as the first operation after reset: the step is the meaning of
what the table word decodes to, and it answers a next state (log entry 10). -/
def Obligations.FetchWordRuns : Prop :=
  ∀ (nbits w : Nat) (i : Instr), decodeTableWord nbits w = some i →
    step (State.reset.withFetchWord nbits w) = exec i { State.reset.withFetchWord nbits w with inputs := [] } ∧
    ∃ t, step (State.reset.withFetchWord nbits w) = .next t

/-! ## The classes of PUSH -/

/-- 40_decoder.md R70, R72: a preamble byte advances the state and writes no other register. -/
def Obligations.PreambleByteAdvances : Prop :=
  (∀ regs, decodeRx regs 0x0024 = .ok .p1Match) ∧
  (∀ regs, decodeRx regs 0x014D = .ok .p2Match) ∧
  (∀ s : State, s.rx.state = .p1 →
    ∃ t, exec .p1Match s = .next t ∧ t.idle = false ∧
      t = { s with rx := { s.rx with state := .p2 }, rxOut := .push .noFrame .diagNone }) ∧
  (∀ s : State, s.rx.state = .p2 →
    ∃ t, exec .p2Match s = .next t ∧ t.idle = false ∧
      t = { s with rx := { s.rx with state := .dir }, rxOut := .push .noFrame .diagNone })

/-- 40_decoder.md R71, R77, and the effect of R73: a byte that does not fit in P1, P2 or DIR is absorbed: RESET_ALL,
`NoFrame`, and its event on the side band. In the states of 10_state.md R17 only `rx.state` can change. -/
def Obligations.FramingViolationAbsorbed : Prop :=
  (∀ regs (b : Byte), b ≠ 0x24 → decodeRx regs (BitVec.ofNat 13 (0x0000 + b.toNat)) = .ok (.p1Skip b)) ∧
  (∀ regs (b : Byte), b ≠ 0x4D → decodeRx regs (BitVec.ofNat 13 (0x0100 + b.toNat)) = .ok (.p2Miss b)) ∧
  (∀ regs (b : Byte), b ≠ 0x3C → b ≠ 0x3E → b ≠ 0x21 →
    decodeRx regs (BitVec.ofNat 13 (0x0200 + b.toNat)) = .ok (.dirBad b)) ∧
  (∀ (s : State) (b : Byte), s.rx.state = .p1 → b ≠ 0x24 →
    ∃ t, exec (.p1Skip b) s = .next t ∧ t.idle = true ∧ (s.rx.Inv → t.rx = s.rx) ∧
      t = { s with rx := ⟨.p1, none, 0, 0, [], 0⟩, rxOut := .push .noFrame .badPreamble1 }) ∧
  (∀ (s : State) (b : Byte), s.rx.state = .p2 → b ≠ 0x4D →
    ∃ t, exec (.p2Miss b) s = .next t ∧ t.idle = true ∧ (s.rx.Inv → t.rx = { s.rx with state := .p1 }) ∧
      t = { s with rx := ⟨.p1, none, 0, 0, [], 0⟩, rxOut := .push .noFrame .badPreamble2 }) ∧
  (∀ (s : State) (b : Byte), s.rx.state = .dir → b ≠ 0x3C → b ≠ 0x3E → b ≠ 0x21 →
    ∃ t, exec (.dirBad b) s = .next t ∧ t.idle = true ∧ (s.rx.Inv → t.rx = { s.rx with state := .p1 }) ∧
      t = { s with rx := ⟨.p1, none, 0, 0, [], 0⟩, rxOut := .push .noFrame .badDirection })

/-- 40_decoder.md R74, R75, R76: a direction byte is stored and is not folded into the checksum. -/
def Obligations.DirectionByteStored : Prop :=
  (∀ regs, decodeRx regs 0x023C = .ok .dirTo ∧ decodeRx regs 0x023E = .ok .dirFrom ∧
    decodeRx regs 0x0221 = .ok .dirUns) ∧
  (∀ s : State, s.rx.state = .dir →
    (∃ t, exec .dirTo s = .next t ∧ t.idle = false ∧ t =
      { s with rx := { s.rx with direction := some .toDevice, state := .len }, rxOut := .push .noFrame .diagNone }) ∧
    (∃ t, exec .dirFrom s = .next t ∧ t.idle = false ∧ t =
      { s with rx := { s.rx with direction := some .fromDevice, state := .len }, rxOut := .push .noFrame .diagNone }) ∧
    (∃ t, exec .dirUns s = .next t ∧ t.idle = false ∧ t =
      { s with rx := { s.rx with direction := some .unsupported, state := .len }, rxOut := .push .noFrame .diagNone }))

/-- 40_decoder.md R78: the length byte loads the counter and is folded into the checksum, which was 0x00 in the states
of 10_state.md R17; every length is legal and the payload stays as it was. -/
def Obligations.LengthByteLoaded : Prop :=
  (∀ regs (b : Byte), decodeRx regs (BitVec.ofNat 13 (0x0300 + b.toNat)) = .ok (.len b)) ∧
  (∀ (s : State) (b : Byte), s.rx.state = .len →
    ∃ t, exec (.len b) s = .next t ∧ t.idle = false ∧ (s.rx.Inv → t.rx.checksum = b ∧ t.rx.payload = []) ∧
      t = { s with
            rx := { s.rx with remaining := b, checksum := s.rx.checksum ^^^ b, state := .opc }
            rxOut := .push .noFrame .diagNone })

/-- 40_decoder.md R79, R80: the opcode byte is stored and folded; the payload state is skipped exactly when the counter
is zero. In the states of 10_state.md R17 an empty frame's checksum is its opcode, and an opcode equal to the LEN byte
leaves 0x00. -/
def Obligations.OpcodeByteStored : Prop :=
  (∀ (regs : CondRegs) (b : Byte), regs.remaining = 0 →
    decodeRx regs (BitVec.ofNat 13 (0x0400 + b.toNat)) = .ok (.opcZ b)) ∧
  (∀ (regs : CondRegs) (b : Byte), regs.remaining ≠ 0 →
    decodeRx regs (BitVec.ofNat 13 (0x0400 + b.toNat)) = .ok (.opcNz b)) ∧
  (∀ (s : State) (b : Byte), s.rx.state = .opc → s.rx.remaining = 0 →
    ∃ t, exec (.opcZ b) s = .next t ∧ t.idle = false ∧
      (s.rx.Inv → t.rx.checksum = b ∧ t.rx.payload = [] ∧ t.rx.remaining = 0) ∧
      t = { s with
            rx := { s.rx with opcode := b, checksum := s.rx.checksum ^^^ b, state := .chk }
            rxOut := .push .noFrame .diagNone }) ∧
  (∀ (s : State) (b : Byte), s.rx.state = .opc → s.rx.remaining ≠ 0 →
    ∃ t, exec (.opcNz b) s = .next t ∧ t.idle = false ∧ t.rx.remaining = s.rx.remaining ∧
      (s.rx.Inv → b = s.rx.remaining → t.rx.checksum = 0) ∧
      t = { s with
            rx := { s.rx with opcode := b, checksum := s.rx.checksum ^^^ b, state := .pay }
            rxOut := .push .noFrame .diagNone })

/-- 40_decoder.md R81, R82: a payload byte is appended as it is, folded and counted; the last one leads to CHK, and
then the payload has the declared length. RXBUF has 255 cells (10_state.md R20). -/
def Obligations.PayloadByteStored : Prop :=
  (∀ (regs : CondRegs) (b : Byte), regs.remaining ≠ 1 →
    decodeRx regs (BitVec.ofNat 13 (0x0500 + b.toNat)) = .ok (.payMore b)) ∧
  (∀ (regs : CondRegs) (b : Byte), regs.remaining = 1 →
    decodeRx regs (BitVec.ofNat 13 (0x0500 + b.toNat)) = .ok (.payLast b)) ∧
  (∀ (s : State) (b : Byte), s.rx.state = .pay → 2 ≤ s.rx.remaining.toNat → s.rx.payload.length < 255 →
    ∃ t, exec (.payMore b) s = .next t ∧ t.idle = false ∧ t.rx.remaining.toNat = s.rx.remaining.toNat - 1 ∧
      t = { s with
            rx := { s.rx with
                    payload := s.rx.payload ++ [b]
                    checksum := s.rx.checksum ^^^ b
                    remaining := s.rx.remaining - 1 }
            rxOut := .push .noFrame .diagNone }) ∧
  (∀ (s : State) (b : Byte), s.rx.state = .pay → s.rx.remaining = 1 → s.rx.payload.length < 255 →
    ∃ t, exec (.payLast b) s = .next t ∧ t.idle = false ∧ t.rx.payload.length = s.rx.declaredLength ∧
      t = { s with
            rx := { s.rx with
                    payload := s.rx.payload ++ [b]
                    checksum := s.rx.checksum ^^^ b
                    remaining := 0
                    state := .chk }
            rxOut := .push .noFrame .diagNone })

/-- 40_decoder.md R83: a checksum byte that matches emits the Frame of the registers before the reset. In the states of
10_state.md R17 there is a direction, and the byte is the checksum of the Frame, whose payload has the declared
length. -/
def Obligations.FrameEmitted : Prop :=
  (∀ (regs : CondRegs) (b : Byte), b = regs.checksum →
    decodeRx regs (BitVec.ofNat 13 (0x0600 + b.toNat)) = .ok (.chkOk b)) ∧
  (∀ (s : State) (b : Byte) (d : Direction), s.rx.state = .chk → b = s.rx.checksum → s.rx.direction = some d →
    ∃ t, exec (.chkOk b) s = .next t ∧ t.idle = true ∧
      t = { s with
            rx := ⟨.p1, none, 0, 0, [], 0⟩
            rxOut := .push (.frame ⟨s.rx.opcode, d, s.rx.payload⟩) .diagNone }) ∧
  (∀ (s : State) (b : Byte), s.rx.Inv → s.rx.state = .chk → b = s.rx.checksum →
    ∃ t f, exec (.chkOk b) s = .next t ∧ t.rxOut = .push (.frame f) .diagNone ∧ f.WellFormed ∧
      b = f.checksum ∧ f.payload.length = s.rx.declaredLength) ∧
  (∀ (i : Instr) (s t : State) (f : Frame) (d : Diag), i.isRx = true → exec i s = .next t →
    t.rxOut = .push (.frame f) d → ∃ b, i = .chkOk b)

/-- 40_decoder.md R84 with the error entry of 60_exceptions.md R117: a checksum byte that does not match raises
ChecksumMismatch, with the byte received and the accumulator before the reset, and no other RX operation does. -/
def Obligations.ChecksumMismatchRaised : Prop :=
  (∀ (regs : CondRegs) (b : Byte), b ≠ regs.checksum →
    decodeRx regs (BitVec.ofNat 13 (0x0600 + b.toNat)) = .ok (.chkBad b)) ∧
  (∀ (s : State) (b : Byte), s.rx.state = .chk → b ≠ s.rx.checksum →
    ∃ t, exec (.chkBad b) s = .next t ∧ t.idle = true ∧
      t = { s with
            rx := ⟨.p1, none, 0, 0, [], 0⟩
            rxOut := .push (.error b s.rx.checksum) .diagNone }) ∧
  (∀ (i : Instr) (s t : State) (e c : Byte) (d : Diag), i.isRx = true → exec i s = .next t →
    t.rxOut = .push (.error e c) d → i = .chkBad e ∧ c = s.rx.checksum)

/-! ## RESET and IDLE? -/

/-- 40_decoder.md R85: RESET restores the initial registers in every state, with no result. Twice is once, in P1 it
changes no register of the states of 10_state.md R17, and nothing after it depends on the registers before it. -/
def Obligations.ResetRestoresInitial : Prop :=
  (∀ regs (w : RxWord), rxOp w = 1 → decodeRx regs w = .ok .reset) ∧
  (∀ s : State, ∃ t, exec .reset s = .next t ∧ t.idle = true ∧
    t = { s with rx := ⟨.p1, none, 0, 0, [], 0⟩, rxOut := .none } ∧
    exec .reset t = .next t ∧
    (s.rx.Inv → s.rx.state = .p1 → t.rx = s.rx) ∧
    ∀ r : RxRegs, exec .reset { s with rx := r } = .next t)

/-- 40_decoder.md R86: IDLE? answers whether the decoder is in P1 and writes no state; it is false after the byte 0x24
in P1, true after a checksum mismatch and after discarded noise. -/
def Obligations.IdleQueryAnswers : Prop :=
  (∀ regs (w : RxWord), rxOp w = 2 → decodeRx regs w = .ok .idleQuery) ∧
  (∀ s : State, exec .idleQuery s = .next { s with rxOut := .idle (decide (s.rx.state = .p1)) }) ∧
  (∀ s t : State, exec .p1Match s = .next t → ∃ u, exec .idleQuery t = .next u ∧ u.rxOut = .idle false) ∧
  (∀ (s t : State) (b : Byte), exec (.chkBad b) s = .next t ∨ exec (.p1Skip b) s = .next t →
    ∃ u, exec .idleQuery t = .next u ∧ u.rxOut = .idle true)

/-! ## The TX operations -/

/-- 41_encoder.md R95: WIRESIZE answers `6 + n` in the natural numbers, from the `len` field alone, and changes nothing
else. -/
def Obligations.WireSizeAnswers : Prop :=
  (∀ w : TxWord, txOp w = 0 → decodeTx w = .ok (.wiresize (txLen w))) ∧
  (∀ (s : State) (n : Byte), exec (.wiresize n) s = .next { s with txOut := .size (6 + n.toNat) })

/-- 41_encoder.md R96: CKSUM answers the exclusive-or of the length byte, the opcode and the payload in TXSRC, in any
order of the payload; the direction is not an input, and an empty frame's checksum is its opcode. -/
def Obligations.ChecksumGenerated : Prop :=
  (∀ (w : TxWord) (d : Direction), txOp w = 1 → Direction.ofCode (txDir w) = some d →
    decodeTx w = .ok (.cksum d (txLen w) (txOpcode w))) ∧
  (∀ (s : State) (d : Direction) (n op : Byte),
    exec (.cksum d n op) s =
      .next { s with txOut := .checksum (n ^^^ op ^^^ fold (Memory.readFrom s.txsrc 0 n.toNat)) }) ∧
  (∀ (s t : State) (d : Direction) (n op : Byte) (p : List Byte), exec (.cksum d n op) s = .next t →
    p.Perm (Memory.readFrom s.txsrc 0 n.toNat) → t.txOut = .checksum (n ^^^ op ^^^ fold p)) ∧
  (∀ (s : State) (d : Direction) (op : Byte), exec (.cksum d 0 op) s = .next { s with txOut := .checksum op })

/-- 41_encoder.md R97: with a buffer of exactly `6 + n` cells ENCODE writes the bytes of the frame, one cell each, no
other cell, and nothing of the decoder. -/
def Obligations.EncodeWritesFrame : Prop :=
  (∀ (w : TxWord) (d : Direction), txOp w = 2 → Direction.ofCode (txDir w) = some d →
    (txBufLen w).toNat = 6 + (txLen w).toNat →
    decodeTx w = .ok (.encodeOk d (txLen w) (txOpcode w) (txBufLen w))) ∧
  (∀ (s : State) (d : Direction) (n op : Byte) (bufLen : BufLen), Memory.WellFormed s.txbuf →
    bufLen.toNat = 6 + n.toNat →
    ∃ m, exec (.encodeOk d n op bufLen) s = .next { s with txbuf := m, txOut := .encoded .ok } ∧
      Memory.read m 0 = 0x24 ∧ Memory.read m 1 = 0x4D ∧ Memory.read m 2 = d.toByte ∧ Memory.read m 3 = n ∧
      Memory.read m 4 = op ∧
      (∀ i, i < n.toNat → Memory.read m (5 + i) = Memory.read s.txsrc i) ∧
      Memory.read m (5 + n.toNat) = n ^^^ op ^^^ fold (Memory.readFrom s.txsrc 0 n.toNat) ∧
      (∀ a, bufLen.toNat ≤ a → Memory.read m a = Memory.read s.txbuf a))

/-- 41_encoder.md R98 with the error entry of 60_exceptions.md R117: any other size raises OutputBufferSizeMismatch, no
cell is written, and no other TX operation raises it. -/
def Obligations.EncodeSizeMismatch : Prop :=
  (∀ (w : TxWord) (d : Direction), txOp w = 2 → Direction.ofCode (txDir w) = some d →
    (txBufLen w).toNat ≠ 6 + (txLen w).toNat →
    decodeTx w = .ok (.encodeErr d (txLen w) (txOpcode w) (txBufLen w))) ∧
  (∀ (s : State) (d : Direction) (n op : Byte) (bufLen : BufLen), bufLen.toNat ≠ 6 + n.toNat →
    ∃ t, exec (.encodeErr d n op bufLen) s = .next t ∧ t = { s with txOut := .encoded .error } ∧
      ∀ a, Memory.read t.txbuf a = Memory.read s.txbuf a) ∧
  (∀ (i : Instr) (s t : State), i.isRx = false → exec i s = .next t → t.txOut = .encoded .error →
    ∃ d n op bufLen, i = .encodeErr d n op bufLen)

/-- 20_memory.md R38: a successful ENCODE writes the cells of TXBUF in increasing offset, each once, in the order of the
wire frame, and a refused size writes none and emits nothing (41_encoder.md section 3, streaming realisation). -/
def Obligations.EncodeStoresInOrder : Prop :=
  (∀ (s : State) (d : Direction) (n op : Byte) (bufLen : BufLen), bufLen.toNat = 6 + n.toNat →
    ∃ (f : Frame) (stores : List (Nat × Byte)),
      f = ⟨op, d, Memory.readFrom s.txsrc 0 n.toNat⟩ ∧
      exec (.encodeOk d n op bufLen) s =
        .next { s with txbuf := Memory.writeAll s.txbuf stores, txOut := .encoded .ok } ∧
      stores.map Prod.fst = List.range (6 + n.toNat) ∧ stores.map Prod.snd = f.bytes ∧
      emissions n f bufLen = f.bytes) ∧
  (∀ (s : State) (d : Direction) (n op : Byte) (bufLen : BufLen), bufLen.toNat ≠ 6 + n.toNat →
    (∃ t, exec (.encodeErr d n op bufLen) s = .next t ∧ t.txbuf = s.txbuf) ∧
    ∀ f, emissions n f bufLen = [])

/-! ## Where an operation completes and where it stops -/

/-- In the states of 10_state.md R17, every operation whose rule's precondition holds answers a next state
(20_memory.md section 6 (d): every operation completes). -/
def Obligations.EveryOperationCompletes : Prop :=
  ∀ (i : Instr) (s : State), s.rx.Inv → precondition i s.rx = true → ∃ t, exec i s = .next t

/-- Outside its rule's precondition no operation has an effect: it is refused (log entry 7), and PAY.MORE with the
counter at zero is stuck (93_implementation_defined.md U8, log entry 8). -/
def Obligations.OutsidePreconditionStops : Prop :=
  (∀ (i : Instr) (s : State), precondition i s.rx = false →
    (∀ b, i = .payMore b → s.rx.state = .pay → s.rx.remaining ≠ 0) → exec i s = .refused .outsideClass) ∧
  (∀ (s : State) (b : Byte), s.rx.state = .pay → s.rx.remaining = 0 →
    exec (.payMore b) s = .fault .payloadCounterZero) ∧
  (∀ (s : State) (b : Byte), s.rx.state = .pay → 2 ≤ s.rx.remaining.toNat → 255 ≤ s.rx.payload.length →
    exec (.payMore b) s = .fault .rxbufFull) ∧
  (∀ (s : State) (b : Byte), s.rx.state = .pay → s.rx.remaining = 1 → 255 ≤ s.rx.payload.length →
    exec (.payLast b) s = .fault .rxbufFull) ∧
  (∀ (s : State) (b : Byte), s.rx.state = .chk → b = s.rx.checksum → s.rx.direction = none →
    exec (.chkOk b) s = .fault .directionMissing)

/-- What the step decodes it may run: in the states of 10_state.md R17 the precondition of the rule of a decoded
operation holds (40_decoder.md section 1, dispatch). -/
def Obligations.DecodedOperationMayRun : Prop :=
  (∀ (r : RxRegs) (rxop : BitVec 2) (b : Byte) (i : Instr), r.Inv →
    decodeRx r.condRegs (r.word rxop b) = .ok i → precondition i r = true) ∧
  (∀ (w : TxWord) (r : RxRegs) (i : Instr), decodeTx w = .ok i → precondition i r = true)

/-- From a state of the invariant no step faults, unless the caller writes a cell that does not exist, and a step is
refused only for a reserved word (60_exceptions.md section 5: no error is fatal). -/
def Obligations.InvariantStatesNeverFault : Prop :=
  ∀ s : State, s.Inv →
    (∀ sp a v rest, s.inputs = .callerWrite sp a v :: rest → a < sp.cells) →
    (∀ f, step s ≠ .fault f) ∧ (∀ r, step s = .refused r → ∃ e, r = .reservedWord e)

/-! ## Frames -/

/-- An RX operation touches the RX registers and the RX result, and nothing else: no cell of a caller's memory, no TX
result, no input (00_scope.md section 3; 20_memory.md section 3). -/
def Obligations.RxOperationsFrame : Prop :=
  ∀ (i : Instr) (s t : State), i.isRx = true → exec i s = .next t →
    t.txsrc = s.txsrc ∧ t.txbuf = s.txbuf ∧ t.txOut = s.txOut ∧ t.inputs = s.inputs ∧
    ∀ a, Memory.read t.txsrc a = Memory.read s.txsrc a ∧ Memory.read t.txbuf a = Memory.read s.txbuf a

/-- A TX operation touches the TX result, and ENCODE.OK the cells of TXBUF it writes; no RX register, no RX result, no
cell of TXSRC, no input, no other cell of TXBUF (00_scope.md section 3; 20_memory.md section 3). -/
def Obligations.TxOperationsFrame : Prop :=
  ∀ (i : Instr) (s t : State), i.isRx = false → exec i s = .next t →
    t.rx = s.rx ∧ t.rxOut = s.rxOut ∧ t.txsrc = s.txsrc ∧ t.inputs = s.inputs ∧
    (∀ a, Memory.read t.txsrc a = Memory.read s.txsrc a) ∧
    (∀ d n op bufLen, i = .encodeOk d n op bufLen → ∀ a, 6 + n.toNat ≤ a →
      Memory.read t.txbuf a = Memory.read s.txbuf a) ∧
    ((∀ d n op bufLen, i ≠ .encodeOk d n op bufLen) → ∀ a, Memory.read t.txbuf a = Memory.read s.txbuf a)

/-- The RX registers that each RX operation leaves as they were (10_state.md section 1, column "written by"). The
classes that reset write all six. -/
def Obligations.RxRegistersFrame : Prop :=
  ∀ (s t : State) (b : Byte),
    (exec .idleQuery s = .next t → t.rx = s.rx) ∧
    (exec .p1Match s = .next t ∨ exec .p2Match s = .next t →
      t.rx.direction = s.rx.direction ∧ t.rx.opcode = s.rx.opcode ∧ t.rx.remaining = s.rx.remaining ∧
      t.rx.payload = s.rx.payload ∧ t.rx.checksum = s.rx.checksum) ∧
    (exec .dirTo s = .next t ∨ exec .dirFrom s = .next t ∨ exec .dirUns s = .next t →
      t.rx.opcode = s.rx.opcode ∧ t.rx.remaining = s.rx.remaining ∧
      t.rx.payload = s.rx.payload ∧ t.rx.checksum = s.rx.checksum) ∧
    (exec (.len b) s = .next t →
      t.rx.direction = s.rx.direction ∧ t.rx.opcode = s.rx.opcode ∧ t.rx.payload = s.rx.payload) ∧
    (exec (.opcZ b) s = .next t ∨ exec (.opcNz b) s = .next t →
      t.rx.direction = s.rx.direction ∧ t.rx.remaining = s.rx.remaining ∧ t.rx.payload = s.rx.payload) ∧
    (exec (.payMore b) s = .next t ∨ exec (.payLast b) s = .next t →
      t.rx.direction = s.rx.direction ∧ t.rx.opcode = s.rx.opcode)

/-! ## The whole machine -/

/-- 10_state.md R18: the registers right after reset, that RESET_ALL writes the same, and that they are the registers
after a hardware reset. -/
def Obligations.ResetRegisters : Prop :=
  State.reset.rx.state = .p1 ∧ State.reset.rx.direction = none ∧ State.reset.rx.opcode = 0x00 ∧
  State.reset.rx.remaining = 0x00 ∧ State.reset.rx.payload = [] ∧ State.reset.rx.checksum = 0x00 ∧
  (∀ s : State, s.resetAll.rx = State.reset.rx) ∧
  (∀ (s : State) (c : Option Request) (rest : List Input), s.inputs = .hwReset c :: rest →
    ∃ t, step s = .next t ∧ t.rx = State.reset.rx)

/-- The invariant holds right after reset. -/
def Obligations.InvariantAtReset : Prop := State.reset.Inv

/-- Every step keeps the invariant: the table of 10_state.md R17 for the registers, the canonical form and the extent of
both memories, and that an emitted Frame is a Frame. -/
def Obligations.StepKeepsInvariant : Prop :=
  ∀ s t : State, s.Inv → step s = .next t → t.Inv

/-- 40_decoder.md R66: in the states of 10_state.md R17 a `PUSH` of any byte completes in one step, consumes that one
input, returns exactly one RxResult with a Diag, and leaves a state in which the next `PUSH` is legal. -/
def Obligations.PushIsTotal : Prop :=
  ∀ (s : State) (b : Byte) (rest : List Input), s.Inv → s.inputs = .op (.rx 0 b) :: rest →
    ∃ t r d, step s = .next t ∧ t.inputs = rest ∧ t.rxOut = .push r d ∧ t.Inv

/-- 40_decoder.md R68: the next-state function, with the result of each row, in the states of 10_state.md R17; and
no other input changes `rx.state`. -/
def Obligations.NextStateTable : Prop :=
  (∀ (s : State) (b : Byte) (rest : List Input), s.Inv → s.inputs = .op (.rx 0 b) :: rest →
    ∃ t r d, step s = .next t ∧ t.rxOut = .push r d ∧
      t.rx.state = (match s.rx.state with
        | .p1 => if b = 0x24 then RxState.p2 else .p1
        | .p2 => if b = 0x4D then .dir else .p1
        | .dir => if b = 0x3C ∨ b = 0x3E ∨ b = 0x21 then .len else .p1
        | .len => .opc
        | .opc => if s.rx.remaining = 0 then .chk else .pay
        | .pay => if s.rx.remaining = 1 then .chk else .pay
        | .chk => .p1) ∧
      (s.rx.state ≠ .chk → r = .noFrame) ∧
      (s.rx.state = .chk → b = s.rx.checksum → ∃ f, r = .frame f) ∧
      (s.rx.state = .chk → b ≠ s.rx.checksum → r = .error b s.rx.checksum)) ∧
  (∀ (s : State) (b : Byte) (rest : List Input), s.inputs = .op (.rx 1 b) :: rest →
    ∃ t, step s = .next t ∧ t.rx.state = .p1 ∧ t.rxOut = .none) ∧
  (∀ (s : State) (b : Byte) (rest : List Input), s.inputs = .op (.rx 2 b) :: rest →
    ∃ t a, step s = .next t ∧ t.rx.state = s.rx.state ∧ t.rxOut = .idle a) ∧
  (∀ s t : State, step s = .next t → (∀ rxop b rest, s.inputs ≠ .op (.rx rxop b) :: rest) →
    (∀ c rest, s.inputs ≠ .hwReset c :: rest) → t.rx = s.rx)

/-- 40_decoder.md R69: which event a `PUSH` puts on the side band. -/
def Obligations.DiagSideBand : Prop :=
  ∀ (s : State) (b : Byte) (rest : List Input), s.Inv → s.inputs = .op (.rx 0 b) :: rest →
    ∃ t r d, step s = .next t ∧ t.rxOut = .push r d ∧
      (d = .badPreamble1 ↔ s.rx.state = .p1 ∧ b ≠ 0x24) ∧
      (d = .badPreamble2 ↔ s.rx.state = .p2 ∧ b ≠ 0x4D) ∧
      (d = .badDirection ↔ s.rx.state = .dir ∧ b ≠ 0x3C ∧ b ≠ 0x3E ∧ b ≠ 0x21) ∧
      (d ≠ .diagNone → r = .noFrame ∧ t.idle = true)

/-- After a Frame or an error, and after any reset, the next five results are `NoFrame`: two such results are at least
six bytes apart (40_decoder.md section 10, 60_exceptions.md section 5; the spec's own inference). -/
def Obligations.FiveQuietBytes : Prop :=
  ∀ (s : State) (bs : List Byte), s.rx = RxRegs.initial → bs.length ≤ 5 →
    ∃ outs t, feed bs s = some (outs, t) ∧ outs.length = bs.length ∧ ∀ o ∈ outs, o.isNoFrame = true

/-- From a state of the invariant any bytes at all can be fed, and the decoder is back in P1 after at most the count
of 60_exceptions.md section 5 (the spec's own inference). -/
def Obligations.ReturnToIdleBound : Prop :=
  ∀ (s : State) (bs : List Byte), s.Inv → bs.length = s.rx.bytesToIdle →
    ∃ k outs t, k ≤ bs.length ∧ feed (bs.take k) s = some (outs, t) ∧ t.idle = true

/-- A truncated frame swallows exactly the bytes that are still to come: `remaining + 2` from OPC, `remaining + 1` from
PAY, 1 from CHK. The decoder is not idle before, the results are `NoFrame` but for the last, which is a Frame or an
error, and then the registers are initial (40_decoder.md section 10; the spec's own inference). -/
def Obligations.TruncatedFrameSwallows : Prop :=
  ∀ (s : State) (bs : List Byte), s.rx.Inv → s.rx.state = .opc ∨ s.rx.state = .pay ∨ s.rx.state = .chk →
    bs.length = s.rx.bytesToIdle →
    ∃ outs r t, feed bs s = some (outs ++ [.push r .diagNone], t) ∧ (∀ o ∈ outs, o = quiet) ∧ r ≠ .noFrame ∧
      t.rx = RxRegs.initial ∧
      ∀ k, k < bs.length → ∃ o u, feed (bs.take k) s = some (o, u) ∧ u.idle = false

/-! ## Byte streams -/

/-- A whole frame from idle: every frame of 0 to 255 payload bytes, fed to a decoder in its initial state, gives
`NoFrame` for every byte but the last and the Frame for the last, and leaves the initial state (40_decoder.md
section 10, "A whole frame from idle"; the spec's own inference). -/
def Obligations.WholeFrameFromIdle : Prop :=
  ∀ (s : State) (f : Frame), s.rx = RxRegs.initial → f.WellFormed →
    feed f.bytes s =
      some (List.replicate (5 + f.payload.length) quiet ++ [.push (.frame f) .diagNone],
        { s with rxOut := .push (.frame f) .diagNone })

/-- Round trip: what ENCODE leaves in TXBUF, fed in index order to an idle decoder, gives the Frame that was encoded
(40_decoder.md section 10, "Round trip"; the spec's own inference). -/
def Obligations.EncodeThenDecodeRoundTrip : Prop :=
  ∀ (s : State) (d : Direction) (n op : Byte) (bufLen : BufLen), Memory.WellFormed s.txbuf →
    s.rx = RxRegs.initial → bufLen.toNat = 6 + n.toNat →
    ∃ t u, exec (.encodeOk d n op bufLen) s = .next t ∧
      feed (Memory.readFrom t.txbuf 0 (6 + n.toNat)) t =
        some (List.replicate (5 + n.toNat) quiet
            ++ [.push (.frame ⟨op, d, Memory.readFrom s.txsrc 0 n.toNat⟩) .diagNone], u) ∧
      u.rx = RxRegs.initial

/-- `ENCODE f, 6 + n` as a caller presents it (30_encoding.md section 6; log entries 1, 5): the payload put into TXSRC
cell by cell, then the operation; TXBUF then holds the bytes of the frame, the decoder is as before. -/
def Obligations.PresentedEncodeWritesFrame : Prop :=
  ∀ (s : State) (f : Frame), s.Inv → f.WellFormed →
    ∃ is t, (Operation.encode f (6 + f.payload.length)).inputs = some is ∧
      Host.Core.run Sys2Proof.core is.length { s with inputs := is ++ s.inputs } = .next t ∧
      t.txOut = .encoded .ok ∧ Memory.readFrom t.txbuf 0 (6 + f.payload.length) = f.bytes ∧
      t.rx = s.rx ∧ t.rxOut = s.rxOut ∧ t.inputs = s.inputs

/-- Noise without the byte 0x24 before a frame is skipped byte by byte and the frame is recognised (40_decoder.md
section 10, "Resynchronisation, with its condition"; the spec's own inference). -/
def Obligations.NoiseBeforeFrameSkipped : Prop :=
  ∀ (s : State) (noise : List Byte) (f : Frame), s.rx = RxRegs.initial → (∀ b ∈ noise, b ≠ 0x24) → f.WellFormed →
    feed (noise ++ f.bytes) s =
      some (List.replicate noise.length (.push .noFrame .badPreamble1)
          ++ (List.replicate (5 + f.payload.length) quiet ++ [.push (.frame f) .diagNone]),
        { s with rxOut := .push (.frame f) .diagNone })

/-- No rescan: a stray 0x24 directly before a frame loses that frame without any error, when no later byte of the frame
is 0x24 (40_decoder.md section 10, "No rescan" (a); the spec's own inference, with the condition of log entry 18). -/
def Obligations.StrayMarkerLosesFrame : Prop :=
  ∀ (s : State) (f : Frame), s.rx = RxRegs.initial → (∀ b ∈ f.bytes.tail, b ≠ 0x24) →
    ∃ outs t, feed (0x24 :: f.bytes) s = some (outs, t) ∧ (∀ o ∈ outs, o.isNoFrame = true) ∧
      t.rx = RxRegs.initial

/-- A corrupted checksum byte is reported with the byte received and the true fold, and the decoder is ready for the
next frame at once (40_decoder.md section 10, "Checksum mismatch is recoverable"; the spec's own inference). -/
def Obligations.CorruptedChecksumReported : Prop :=
  ∀ (s : State) (f g : Frame) (c : Byte), s.rx = RxRegs.initial → f.WellFormed → g.WellFormed → c ≠ f.checksum →
    feed (f.bytes.dropLast ++ [c] ++ g.bytes) s =
      some (List.replicate (5 + f.payload.length) quiet ++ [.push (.error c f.checksum) .diagNone]
          ++ (List.replicate (5 + g.payload.length) quiet ++ [.push (.frame g) .diagNone]),
        { s with rxOut := .push (.frame g) .diagNone })

/-- A single corrupted opcode or payload byte, with every other byte intact, ends in ChecksumMismatch (40_decoder.md
section 10; the spec's own inference). -/
def Obligations.SingleCorruptionDetected : Prop :=
  ∀ (s : State) (f : Frame), s.rx = RxRegs.initial → f.WellFormed →
    (∀ op : Byte, op ≠ f.opcode →
      ∃ outs t c, feed (({ f with opcode := op } : Frame).bytes.dropLast ++ [f.checksum]) s =
        some (outs ++ [.push (.error f.checksum c) .diagNone], t) ∧ c ≠ f.checksum ∧ t.rx = RxRegs.initial) ∧
    (∀ (i : Nat) (h : i < f.payload.length) (v : Byte), v ≠ f.payload[i] →
      ∃ outs t c, feed (({ f with payload := f.payload.set i v } : Frame).bytes.dropLast ++ [f.checksum]) s =
        some (outs ++ [.push (.error f.checksum c) .diagNone], t) ∧ c ≠ f.checksum ∧ t.rx = RxRegs.initial)

/-- After RESET from any state at all, reachable or not, the next frame is recognised; nothing of the frame dropped is
seen (60_exceptions.md section 5; the spec's own inference). -/
def Obligations.ResetThenFrameRecognised : Prop :=
  ∀ (s : State) (f : Frame), f.WellFormed →
    ∃ t u, exec .reset s = .next t ∧
      feed f.bytes t =
        some (List.replicate (5 + f.payload.length) quiet ++ [.push (.frame f) .diagNone], u) ∧ u.rx = t.rx

/-! ## The checksum, and the two agents -/

/-- The checksum does not see the order of payload bytes: permuted payloads give frames with one checksum byte, both
accepted, each emitted in its own order (40_decoder.md section 10; the spec's own inference). -/
def Obligations.PermutedPayloadsBothAccepted : Prop :=
  ∀ (s : State) (op : Byte) (d : Direction) (p q : List Byte), s.rx = RxRegs.initial → p.length ≤ 255 → p.Perm q →
    (Frame.mk op d p).checksum = (Frame.mk op d q).checksum ∧
    ∃ t u o, feed (Frame.mk op d p).bytes s = some (o ++ [.push (.frame ⟨op, d, p⟩) .diagNone], t) ∧
      feed (Frame.mk op d q).bytes s = some (o ++ [.push (.frame ⟨op, d, q⟩) .diagNone], u)

/-- Laws of the fold (41_encoder.md section 2; the spec's own inference): the bytes from LEN to CHECKSUM fold to 0x00;
one changed payload byte changes the checksum; two equal changes cancel; an empty frame's checksum is its opcode. -/
def Obligations.ChecksumFoldLaws : Prop :=
  (∀ f : Frame, fold (f.bytes.drop 3) = 0) ∧
  (∀ (f : Frame) (i : Nat) (h : i < f.payload.length) (v : Byte), v ≠ f.payload[i] →
    ({ f with payload := f.payload.set i v } : Frame).checksum ≠ f.checksum) ∧
  (∀ (f : Frame) (i j : Nat) (hi : i < f.payload.length) (hj : j < f.payload.length) (x : Byte), i ≠ j →
    ({ f with payload := (f.payload.set i (f.payload[i] ^^^ x)).set j (f.payload[j] ^^^ x) } : Frame).checksum
      = f.checksum) ∧
  (∀ f : Frame, f.payload = [] → f.checksum = f.opcode)

/-- The two agents do not interfere: an RX and a TX operation that both complete in a state complete in either order,
with the same final state (20_memory.md section 6; the spec's own inference). -/
def Obligations.AgentsCommute : Prop :=
  ∀ (i j : Instr) (s t u : State), i.isRx = true → j.isRx = false → exec i s = .next t → exec j s = .next u →
    ∃ v, exec j t = .next v ∧ exec i u = .next v

/-- The TX operations are functions of their operands: with the same content of TXSRC they give the same result, and
ENCODE.OK the same cells of its buffer, whatever else the states hold (41_encoder.md section 3; the spec's own
inference). -/
def Obligations.TxOperationsPure : Prop :=
  ∀ (i : Instr) (s s' t : State), Memory.WellFormed s.txbuf → Memory.WellFormed s'.txbuf → i.isRx = false →
    s.txsrc = s'.txsrc → exec i s = .next t →
    ∃ t', exec i s' = .next t' ∧ t'.txOut = t.txOut ∧
      ∀ d n op bufLen, i = .encodeOk d n op bufLen → ∀ a, a < 6 + n.toNat →
        Memory.read t'.txbuf a = Memory.read t.txbuf a

/-- Every TX word without a reserved code completes, in every state, and its one result is there
(20_memory.md section 6 (d)). -/
def Obligations.TxWordsComplete : Prop :=
  ∀ (s : State) (w : TxWord) (rest : List Input), s.inputs = .op (.tx w) :: rest → txOp w ≠ 3 →
    (txOp w ≠ 0 → txDir w ≠ 0) →
    ∃ t, step s = .next t ∧ t.inputs = rest ∧
      (txOp w = 0 → t.txOut = .size (6 + (txLen w).toNat)) ∧
      (txOp w = 1 → ∃ c, t.txOut = .checksum c) ∧
      (txOp w = 2 → t.txOut = .encoded (if (txBufLen w).toNat = 6 + (txLen w).toNat then .ok else .error))
end

