-- ==== Sys2Proof/Laws/Wire.lean ====
section
/-! SUPPORT. Laws of the wire encodings and of the exclusive-or fold. -/

namespace Sys2Proof

theorem Direction.ofByte_toByte (d : Direction) : Direction.ofByte d.toByte = some d := by cases d <;> decide

theorem Direction.ofCode_code (d : Direction) : Direction.ofCode d.code = some d := by cases d <;> decide

theorem Direction.ofByte_eq_some {b : Byte} {d : Direction} (h : Direction.ofByte b = some d) : b = d.toByte := by
  unfold Direction.ofByte at h
  split at h
  · cases h; assumption
  split at h
  · cases h; assumption
  split at h
  · cases h; assumption
  · cases h

theorem Direction.ofByte_eq_none {b : Byte} :
    Direction.ofByte b = none ↔ b ≠ 0x3C ∧ b ≠ 0x3E ∧ b ≠ 0x21 := by
  unfold Direction.ofByte
  split
  · simp_all
  split
  · simp_all
  split
  · simp_all
  · simp_all

theorem Direction.ofCode_eq_none {c : BitVec 2} : Direction.ofCode c = none ↔ c = 0 := by
  revert c; decide

theorem Direction.ofCode_eq_some {c : BitVec 2} {d : Direction} (h : Direction.ofCode c = some d) : c = d.code := by
  revert c; cases d <;> decide

@[simp] theorem fold_nil : fold [] = 0 := rfl
@[simp] theorem fold_cons (b : Byte) (bs : List Byte) : fold (b :: bs) = b ^^^ fold bs := rfl

theorem fold_append (p q : List Byte) : fold (p ++ q) = fold p ^^^ fold q := by
  induction p with
  | nil => simp
  | cons b bs ih => simp [ih, BitVec.xor_assoc]

/-- The fold does not see the order. -/
theorem fold_perm {p q : List Byte} (h : p.Perm q) : fold p = fold q := by
  induction h with
  | nil => rfl
  | cons x _ ih => simp [ih]
  | swap x y l => simp only [fold_cons, ← BitVec.xor_assoc, BitVec.xor_comm y x]
  | trans _ _ h1 h2 => exact h1.trans h2

theorem byte_xor_left_cancel {a b c : Byte} (h : a ^^^ b = a ^^^ c) : b = c := by
  have := congrArg (a ^^^ ·) h
  simpa [← BitVec.xor_assoc] using this

/-- The fold after one byte is replaced. -/
theorem fold_set {p : List Byte} {i : Nat} (h : i < p.length) (v : Byte) : fold (p.set i v) = fold p ^^^ p[i] ^^^ v := by
  induction p generalizing i with
  | nil => simp at h
  | cons b p ih =>
    cases i with
    | zero =>
      simp only [List.set_cons_zero, fold_cons, List.getElem_cons_zero]
      rw [BitVec.xor_comm b, BitVec.xor_assoc (fold p), BitVec.xor_self, BitVec.xor_zero, BitVec.xor_comm]
    | succ i =>
      simp only [List.set_cons_succ, fold_cons, List.getElem_cons_succ]
      rw [ih (by simpa using h)]; simp only [BitVec.xor_assoc]

theorem Machine.accumulate_eq (acc : Byte) (p : List Byte) : Machine.accumulate acc p = acc ^^^ fold p := by
  unfold Machine.accumulate
  induction p generalizing acc with
  | nil => simp
  | cons b bs ih => simp [ih, BitVec.xor_assoc]

theorem Frame.bytes_length (f : Frame) : f.bytes.length = 6 + f.payload.length := by
  simp [Frame.bytes]; omega

theorem Frame.lenByte_toNat {f : Frame} (h : f.WellFormed) : f.lenByte.toNat = f.payload.length := by
  have h : f.payload.length ≤ 255 := h
  simp only [Frame.lenByte, BitVec.toNat_ofNat]
  omega

end Sys2Proof
end

