-- ==== Sys2Proof/Laws/Decode.lean ====
section
/-! SUPPORT. The fields of operation words, and what the decoder answers for each value of the fields. -/

namespace Sys2Proof

theorem extract_low {n m : Nat} (x : BitVec n) (y : BitVec m) : (x ++ y).extractLsb' 0 m = y := by
  apply BitVec.eq_of_getLsbD_eq
  intro i hi
  simp [BitVec.getLsbD_append, hi]

theorem extract_high {n m : Nat} (x : BitVec n) (y : BitVec m) (k l : Nat) :
    (x ++ y).extractLsb' (m + k) l = x.extractLsb' k l := by
  apply BitVec.eq_of_getLsbD_eq
  intro i hi
  simp [BitVec.getLsbD_append, hi, show ¬ (m + k + i < m) by omega, show m + k + i - m = k + i by omega]

theorem extract_all {n : Nat} (x : BitVec n) : x.extractLsb' 0 n = x := BitVec.extractLsb'_eq_self

section RxFields
variable (op : BitVec 2) (st : BitVec 3) (b : Byte)

@[simp] theorem rxByte_rxWord : rxByte (rxWord op st b) = b := extract_low (op ++ st) b

@[simp] theorem rxStateField_rxWord : rxStateField (rxWord op st b) = st :=
  (extract_high (op ++ st) b 0 3).trans (extract_low op st)

@[simp] theorem rxOp_rxWord : rxOp (rxWord op st b) = op :=
  (extract_high (op ++ st) b 3 2).trans ((extract_high op st 0 2).trans (extract_all op))

/-- An RX word is its three fields. -/
theorem rxWord_fields (w : RxWord) : rxWord (rxOp w) (rxStateField w) (rxByte w) = w := by
  unfold rxWord rxOp rxStateField rxByte
  rw [BitVec.extractLsb'_append_extractLsb'_eq_extractLsb' (by rfl),
    BitVec.extractLsb'_append_extractLsb'_eq_extractLsb' (by rfl)]
  exact BitVec.extractLsb'_eq_self

theorem rxWord_eq_iff (w : RxWord) : rxWord op st b = w ↔ op = rxOp w ∧ st = rxStateField w ∧ b = rxByte w := by
  constructor
  · rintro rfl; simp
  · rintro ⟨rfl, rfl, rfl⟩; exact rxWord_fields w

theorem rxWord_beq (w : RxWord) :
    (rxWord op st b == w) = (op == rxOp w && st == rxStateField w && b == rxByte w) := by
  rw [Bool.eq_iff_iff]; simp [rxWord_eq_iff, and_assoc]

theorem rxWord_and_state : rxWord op st b &&& 0x1F00#13 = rxWord op st 0 := by
  have h : 0x1F00#13 = ((0x1F#5 : BitVec (2 + 3)) ++ 0#8) := by decide
  have h1 : ∀ x : BitVec (2 + 3), x &&& 0x1F#5 = x := by decide
  rw [h]
  change (op ++ st ++ b : BitVec (2 + 3 + 8)) &&& _ = _
  rw [BitVec.and_append, h1]
  simp [rxWord]

theorem rxWord_and_op : rxWord op st b &&& 0x1800#13 = rxWord op 0 0 := by
  have h : 0x1800#13 = ((0x18#5 : BitVec (2 + 3)) ++ 0#8) := by decide
  have h1 : ∀ (o : BitVec 2) (s : BitVec 3), (o ++ s) &&& 0x18#5 = o ++ 0#3 := by decide
  rw [h]
  change (op ++ st ++ b : BitVec (2 + 3 + 8)) &&& _ = _
  rw [BitVec.and_append, h1]
  simp [rxWord]

theorem rxWord_and_all : rxWord op st b &&& 0x1FFF#13 = rxWord op st b :=
  BitVec.and_allOnes (x := rxWord op st b)

theorem rxWord_toNat (st : BitVec 3) (b : Byte) : (rxWord 0 st b).toNat = 256 * st.toNat + b.toNat := by
  have h : rxWord 0 st b = (0#2 ++ st ++ b : BitVec (2 + 3 + 8)) := rfl
  have := b.isLt
  rw [h, BitVec.toNat_append, BitVec.toNat_append, ← Nat.shiftLeft_add_eq_or_of_lt this]
  simp [Nat.shiftLeft_eq]; omega

/-- The word of a `PUSH` written as a number: the state in bits 10:8, the byte in 7:0. -/
theorem pushWord_ofNat (st : BitVec 3) (b : Byte) :
    BitVec.ofNat 13 (256 * st.toNat + b.toNat) = rxWord 0 st b := by
  rw [← rxWord_toNat, BitVec.ofNat_toNat, BitVec.setWidth_eq]

theorem rxOp_cases : ∀ op : BitVec 2, op = 0 ∨ op = 1 ∨ op = 2 ∨ op = 3 := by decide

theorem rxState_cases :
    ∀ st : BitVec 3, st = 0 ∨ st = 1 ∨ st = 2 ∨ st = 3 ∨ st = 4 ∨ st = 5 ∨ st = 6 ∨ st = 7 := by decide

end RxFields

section RxDecode
variable (regs : CondRegs) (op : BitVec 2) (st : BitVec 3) (b : Byte)

/-- The search through the table, on the fields of the word. -/
theorem decodeRx_rxWord :
    decodeRx regs (rxWord op st b) =
      match rxTable.find? (fun row => (rxWord op st b &&& row.mask == row.pattern) && row.cond.holds regs b) with
      | some row => .ok (row.build b)
      | none => if op = 3 then .error .reservedRxop else .error .reservedState := by
  simp [decodeRx, RxRow.hits] <;> rfl

theorem decodeRx_reset : decodeRx regs (rxWord 1 st b) = .ok .reset := by
  simp [decodeRx_rxWord, rxTable, rxRowsPreamble, RxCond.holds, rxWord_and_op, rxWord_beq, rxOp, rxStateField, rxByte]

theorem decodeRx_idleQuery : decodeRx regs (rxWord 2 st b) = .ok .idleQuery := by
  simp [decodeRx_rxWord, rxTable, rxRowsPreamble, RxCond.holds, rxWord_and_op, rxWord_beq, rxOp, rxStateField, rxByte]

theorem decodeRx_reservedRxop : decodeRx regs (rxWord 3 st b) = .error .reservedRxop := by
  simp [decodeRx_rxWord, rxTable, rxRowsPreamble, rxRowsHeader, rxRowsBody, RxCond.holds, rxWord_and_state,
    rxWord_and_op, rxWord_and_all, rxWord_beq, rxOp, rxStateField, rxByte]

theorem decodeRx_reservedState : decodeRx regs (rxWord 0 7 b) = .error .reservedState := by
  simp [decodeRx_rxWord, rxTable, rxRowsPreamble, rxRowsHeader, rxRowsBody, RxCond.holds, rxWord_and_state,
    rxWord_and_op, rxWord_and_all, rxWord_beq, rxOp, rxStateField, rxByte]

theorem decodeRx_p1 : decodeRx regs (rxWord 0 0 b) = .ok (if b = 0x24#8 then .p1Match else .p1Skip b) := by
  by_cases h : b = 0x24#8 <;>
    simp [decodeRx_rxWord, rxTable, rxRowsPreamble, RxCond.holds, rxWord_and_state,
      rxWord_and_op, rxWord_and_all, rxWord_eq_iff, rxOp, rxStateField, rxByte, beq_eq_decide, h]

theorem decodeRx_p2 : decodeRx regs (rxWord 0 1 b) = .ok (if b = 0x4D#8 then .p2Match else .p2Miss b) := by
  by_cases h : b = 0x4D#8 <;>
    simp [decodeRx_rxWord, rxTable, rxRowsPreamble, RxCond.holds, rxWord_and_state,
      rxWord_and_op, rxWord_and_all, rxWord_eq_iff, rxOp, rxStateField, rxByte, beq_eq_decide, h]

theorem decodeRx_dir :
    decodeRx regs (rxWord 0 2 b) =
      .ok (if b = 0x3C#8 then .dirTo else if b = 0x3E#8 then .dirFrom else if b = 0x21#8 then .dirUns else .dirBad b) := by
  by_cases h1 : b = 0x3C#8 <;> by_cases h2 : b = 0x3E#8 <;> by_cases h3 : b = 0x21#8 <;>
    simp_all [decodeRx_rxWord, rxTable, rxRowsPreamble, rxRowsHeader, RxCond.holds, rxWord_and_state,
      rxWord_and_op, rxWord_and_all, rxWord_eq_iff, rxOp, rxStateField, rxByte, beq_eq_decide]

theorem decodeRx_len : decodeRx regs (rxWord 0 3 b) = .ok (.len b) := by
  simp [decodeRx_rxWord, rxTable, rxRowsPreamble, rxRowsHeader, RxCond.holds, rxWord_and_state,
    rxWord_and_op, rxWord_and_all, rxWord_beq, rxOp, rxStateField, rxByte]

theorem decodeRx_opc :
    decodeRx regs (rxWord 0 4 b) = .ok (if regs.remaining = 0#8 then .opcZ b else .opcNz b) := by
  by_cases h : regs.remaining = 0#8 <;>
    simp [decodeRx_rxWord, rxTable, rxRowsPreamble, rxRowsHeader, rxRowsBody, RxCond.holds,
      rxWord_and_state, rxWord_and_op, rxWord_and_all, rxWord_eq_iff, rxOp, rxStateField, rxByte, bne, beq_eq_decide, h]

theorem decodeRx_pay :
    decodeRx regs (rxWord 0 5 b) = .ok (if regs.remaining = 1#8 then .payLast b else .payMore b) := by
  by_cases h : regs.remaining = 1#8 <;>
    simp [decodeRx_rxWord, rxTable, rxRowsPreamble, rxRowsHeader, rxRowsBody, RxCond.holds,
      rxWord_and_state, rxWord_and_op, rxWord_and_all, rxWord_eq_iff, rxOp, rxStateField, rxByte, bne, beq_eq_decide, h]

theorem decodeRx_chk :
    decodeRx regs (rxWord 0 6 b) = .ok (if b = regs.checksum then .chkOk b else .chkBad b) := by
  by_cases h : b = regs.checksum <;>
    simp [decodeRx_rxWord, rxTable, rxRowsPreamble, rxRowsHeader, rxRowsBody, RxCond.holds,
      rxWord_and_state, rxWord_and_op, rxWord_and_all, rxWord_eq_iff, rxOp, rxStateField, rxByte, bne, beq_eq_decide, h]

end RxDecode

section TxFields
variable (op d : BitVec 2) (l o : Byte) (n : BufLen)

@[simp] theorem txOp_txWord : txOp (txWord op d l o n) = op :=
  (extract_high (op ++ d ++ l ++ o) n 18 2).trans ((extract_high (op ++ d ++ l) o 10 2).trans
    ((extract_high (op ++ d) l 2 2).trans ((extract_high op d 0 2).trans (extract_all op))))

@[simp] theorem txDir_txWord : txDir (txWord op d l o n) = d :=
  (extract_high (op ++ d ++ l ++ o) n 16 2).trans ((extract_high (op ++ d ++ l) o 8 2).trans
    ((extract_high (op ++ d) l 0 2).trans (extract_low op d)))

@[simp] theorem txLen_txWord : txLen (txWord op d l o n) = l :=
  (extract_high (op ++ d ++ l ++ o) n 8 8).trans ((extract_high (op ++ d ++ l) o 0 8).trans
    (extract_low (op ++ d) l))

@[simp] theorem txOpcode_txWord : txOpcode (txWord op d l o n) = o :=
  (extract_high (op ++ d ++ l ++ o) n 0 8).trans (extract_low (op ++ d ++ l) o)

@[simp] theorem txBufLen_txWord : txBufLen (txWord op d l o n) = n := extract_low (op ++ d ++ l ++ o) n

/-- A TX word is its five fields. -/
theorem txWord_fields (w : TxWord) : txWord (txOp w) (txDir w) (txLen w) (txOpcode w) (txBufLen w) = w := by
  unfold txWord txOp txDir txLen txOpcode txBufLen
  rw [BitVec.extractLsb'_append_extractLsb'_eq_extractLsb' (by rfl),
    BitVec.extractLsb'_append_extractLsb'_eq_extractLsb' (by rfl),
    BitVec.extractLsb'_append_extractLsb'_eq_extractLsb' (by rfl),
    BitVec.extractLsb'_append_extractLsb'_eq_extractLsb' (by rfl)]
  exact BitVec.extractLsb'_eq_self

theorem txWord_and (op' d' : BitVec 2) (l' o' : Byte) (n' : BufLen) :
    txWord op d l o n &&& txWord op' d' l' o' n' =
      txWord (op &&& op') (d &&& d') (l &&& l') (o &&& o') (n &&& n') := by
  change (op ++ d ++ l ++ o ++ n : BitVec (2 + 2 + 8 + 8 + 16)) &&&
    (op' ++ d' ++ l' ++ o' ++ n' : BitVec (2 + 2 + 8 + 8 + 16)) = _
  rw [BitVec.and_append, BitVec.and_append, BitVec.and_append, BitVec.and_append]
  rfl

end TxFields

/-- What a TX word decodes to, by its fields. -/
theorem decodeTx_cases (w : TxWord) :
    (txOp w = 0 ∧ decodeTx w = .ok (.wiresize (txLen w))) ∨
    (txOp w = 3 ∧ decodeTx w = .error .reservedTxop) ∨
    ((txOp w = 1 ∨ txOp w = 2) ∧ txDir w = 0 ∧ decodeTx w = .error .noDirection) ∨
    (txOp w = 1 ∧ ∃ d, Direction.ofCode (txDir w) = some d ∧ decodeTx w = .ok (.cksum d (txLen w) (txOpcode w))) ∨
    (txOp w = 2 ∧ ∃ d, Direction.ofCode (txDir w) = some d ∧
      decodeTx w = .ok (encodeRow d (txLen w) (txOpcode w) (txBufLen w))) := by
  cases hd : Direction.ofCode (txDir w) with
  | none =>
    have hz := Direction.ofCode_eq_none.1 hd
    rcases rxOp_cases (txOp w) with h | h | h | h <;> simp [decodeTx, h, hd]
    all_goals exact hz
  | some d =>
    rcases rxOp_cases (txOp w) with h | h | h | h <;> simp [decodeTx, h, hd]

end Sys2Proof
end

