-- ==== Sys2Proof/Laws/State.lean ====
section
/-! SUPPORT. One lemma per field per update of State, and what each shared operation does. -/

namespace Sys2Proof.Machine

section Updates
variable (s : State) (r : RxRegs) (o : RxOutput) (x : TxOutput) (m : Memory) (l : List Input)

@[simp] theorem State.withRx_rx : (s.withRx r).rx = r := rfl
@[simp] theorem State.withRx_txsrc : (s.withRx r).txsrc = s.txsrc := rfl
@[simp] theorem State.withRx_txbuf : (s.withRx r).txbuf = s.txbuf := rfl
@[simp] theorem State.withRx_inputs : (s.withRx r).inputs = s.inputs := rfl
@[simp] theorem State.withRx_rxOut : (s.withRx r).rxOut = s.rxOut := rfl
@[simp] theorem State.withRx_txOut : (s.withRx r).txOut = s.txOut := rfl

@[simp] theorem State.withRxOut_rx : (s.withRxOut o).rx = s.rx := rfl
@[simp] theorem State.withRxOut_txsrc : (s.withRxOut o).txsrc = s.txsrc := rfl
@[simp] theorem State.withRxOut_txbuf : (s.withRxOut o).txbuf = s.txbuf := rfl
@[simp] theorem State.withRxOut_inputs : (s.withRxOut o).inputs = s.inputs := rfl
@[simp] theorem State.withRxOut_rxOut : (s.withRxOut o).rxOut = o := rfl
@[simp] theorem State.withRxOut_txOut : (s.withRxOut o).txOut = s.txOut := rfl

@[simp] theorem State.withTxOut_rx : (s.withTxOut x).rx = s.rx := rfl
@[simp] theorem State.withTxOut_txsrc : (s.withTxOut x).txsrc = s.txsrc := rfl
@[simp] theorem State.withTxOut_txbuf : (s.withTxOut x).txbuf = s.txbuf := rfl
@[simp] theorem State.withTxOut_inputs : (s.withTxOut x).inputs = s.inputs := rfl
@[simp] theorem State.withTxOut_rxOut : (s.withTxOut x).rxOut = s.rxOut := rfl
@[simp] theorem State.withTxOut_txOut : (s.withTxOut x).txOut = x := rfl

@[simp] theorem State.withTxbuf_rx : (s.withTxbuf m).rx = s.rx := rfl
@[simp] theorem State.withTxbuf_txsrc : (s.withTxbuf m).txsrc = s.txsrc := rfl
@[simp] theorem State.withTxbuf_txbuf : (s.withTxbuf m).txbuf = m := rfl
@[simp] theorem State.withTxbuf_inputs : (s.withTxbuf m).inputs = s.inputs := rfl
@[simp] theorem State.withTxbuf_rxOut : (s.withTxbuf m).rxOut = s.rxOut := rfl
@[simp] theorem State.withTxbuf_txOut : (s.withTxbuf m).txOut = s.txOut := rfl

@[simp] theorem State.withTxsrc_rx : (s.withTxsrc m).rx = s.rx := rfl
@[simp] theorem State.withTxsrc_txsrc : (s.withTxsrc m).txsrc = m := rfl
@[simp] theorem State.withTxsrc_txbuf : (s.withTxsrc m).txbuf = s.txbuf := rfl
@[simp] theorem State.withTxsrc_inputs : (s.withTxsrc m).inputs = s.inputs := rfl
@[simp] theorem State.withTxsrc_rxOut : (s.withTxsrc m).rxOut = s.rxOut := rfl
@[simp] theorem State.withTxsrc_txOut : (s.withTxsrc m).txOut = s.txOut := rfl

@[simp] theorem State.withInputs_rx : (s.withInputs l).rx = s.rx := rfl
@[simp] theorem State.withInputs_txsrc : (s.withInputs l).txsrc = s.txsrc := rfl
@[simp] theorem State.withInputs_txbuf : (s.withInputs l).txbuf = s.txbuf := rfl
@[simp] theorem State.withInputs_inputs : (s.withInputs l).inputs = l := rfl
@[simp] theorem State.withInputs_rxOut : (s.withInputs l).rxOut = s.rxOut := rfl
@[simp] theorem State.withInputs_txOut : (s.withInputs l).txOut = s.txOut := rfl

@[simp] theorem State.withInputs_withInputs (k : List Input) : (s.withInputs l).withInputs k = s.withInputs k := rfl
@[simp] theorem State.withInputs_self : s.withInputs s.inputs = s := rfl

end Updates

section Operations
variable (s : State) (r : RxRegs)

theorem State.resetAll_eq : s.resetAll = s.withRx RxRegs.initial := rfl
@[simp] theorem State.resetAll_rx : s.resetAll.rx = RxRegs.initial := rfl
@[simp] theorem State.resetAll_txsrc : s.resetAll.txsrc = s.txsrc := rfl
@[simp] theorem State.resetAll_txbuf : s.resetAll.txbuf = s.txbuf := rfl
@[simp] theorem State.resetAll_inputs : s.resetAll.inputs = s.inputs := rfl
@[simp] theorem State.resetAll_txOut : s.resetAll.txOut = s.txOut := rfl

@[simp] theorem State.advance_rx : (s.advance r).rx = r := rfl
@[simp] theorem State.advance_txsrc : (s.advance r).txsrc = s.txsrc := rfl
@[simp] theorem State.advance_txbuf : (s.advance r).txbuf = s.txbuf := rfl
@[simp] theorem State.advance_inputs : (s.advance r).inputs = s.inputs := rfl
@[simp] theorem State.advance_rxOut : (s.advance r).rxOut = .push .noFrame .diagNone := rfl
@[simp] theorem State.advance_txOut : (s.advance r).txOut = s.txOut := rfl

theorem State.absorb_eq (d : Diag) :
    s.absorb d = { s with rx := RxRegs.initial, rxOut := .push .noFrame d } := rfl

theorem State.raise_checksumMismatch (e c : Byte) :
    s.raise (.checksumMismatch e c) = { s with rx := RxRegs.initial, rxOut := .push (.error e c) .diagNone } := rfl

theorem State.raise_outputBufferSizeMismatch :
    s.raise .outputBufferSizeMismatch = { s with txOut := .encoded .error } := rfl

theorem State.emitFrame_eq (d : Direction) :
    s.emitFrame d =
      { s with
        rx := RxRegs.initial
        rxOut := .push (.frame ⟨s.rx.opcode, d, s.rx.payload⟩) .diagNone } := rfl

/-- All that storing a payload byte can do when it answers a next state. -/
theorem State.storePayloadByte_next {s t : State} {b : Byte} {st : RxState}
    (h : s.storePayloadByte b st = .next t) :
    s.rx.payload.length < 255 ∧ t = s.advance { s.rx.takePayloadByte b with state := st } := by
  unfold State.storePayloadByte at h
  split at h
  · cases h; exact ⟨‹_›, rfl⟩
  · cases h

theorem State.storePayloadByte_of_room {s : State} (h : s.rx.payload.length < 255) (b : Byte) (st : RxState) :
    s.storePayloadByte b st = .next (s.advance { s.rx.takePayloadByte b with state := st }) :=
  if_pos h

end Operations

end Sys2Proof.Machine
end

