-- ==== Sys2Proof/Laws/Exec.lean ====
section
/-! SUPPORT. Everything each meaning can do when it answers a next state, one lemma for each. -/

namespace Sys2Proof.Machine

variable {s t : State}

theorem next_eq {u : State} : (Host.Outcome.next u : Host.Outcome State Fault Refusal) = .next t ↔ t = u := by
  simp only [Host.Outcome.next.injEq]; exact eq_comm

theorem execReset_next : execReset s = .next t ↔ t = { s with rx := RxRegs.initial, rxOut := .none } :=
  next_eq

theorem execIdleQuery_next : execIdleQuery s = .next t ↔ t = { s with rxOut := .idle s.idle } :=
  next_eq

/-- A guarded update answers exactly the updated state, when the guard holds. -/
theorem guarded_next_eq {p : Prop} [Decidable p] {u : State} :
    (if p then .next u else .refused .outsideClass : Host.Outcome State Fault Refusal) = .next t ↔ p ∧ t = u := by
  split
  · rename_i h; rw [next_eq]; exact (and_iff_right h).symm
  · rename_i h; simp [h]

/-- A guarded meaning answers a next state exactly when the guard holds and the guarded part answers it. -/
theorem guarded_next {p : Prop} [Decidable p] {o : Host.Outcome State Fault Refusal} :
    (if p then o else .refused .outsideClass) = .next t ↔ p ∧ o = .next t := by
  split <;> simp [*]

theorem execP1Match_next :
    execP1Match s = .next t ↔ s.rx.state = .p1 ∧ t = s.advance { s.rx with state := .p2 } :=
  guarded_next_eq

theorem execP1Skip_next {b : Byte} :
    execP1Skip b s = .next t ↔ (s.rx.state = .p1 ∧ b ≠ 0x24) ∧ t = s.absorb .badPreamble1 :=
  guarded_next_eq

theorem execP2Match_next :
    execP2Match s = .next t ↔ s.rx.state = .p2 ∧ t = s.advance { s.rx with state := .dir } :=
  guarded_next_eq

theorem execP2Miss_next {b : Byte} :
    execP2Miss b s = .next t ↔ (s.rx.state = .p2 ∧ b ≠ 0x4D) ∧ t = s.absorb .badPreamble2 :=
  guarded_next_eq

theorem storeDirection_next {d : Direction} :
    storeDirection d s = .next t ↔
      s.rx.state = .dir ∧ t = s.advance { s.rx with direction := some d, state := .len } :=
  guarded_next_eq

theorem execDirBad_next {b : Byte} :
    execDirBad b s = .next t ↔ (s.rx.state = .dir ∧ Direction.ofByte b = none) ∧ t = s.absorb .badDirection :=
  guarded_next_eq

theorem execLen_next {b : Byte} :
    execLen b s = .next t ↔
      s.rx.state = .len ∧ t = s.advance { s.rx with remaining := b, checksum := s.rx.checksum ^^^ b, state := .opc } :=
  guarded_next_eq

theorem execOpcZ_next {b : Byte} :
    execOpcZ b s = .next t ↔
      (s.rx.state = .opc ∧ s.rx.remaining = 0) ∧
        t = s.advance { s.rx with opcode := b, checksum := s.rx.checksum ^^^ b, state := .chk } :=
  guarded_next_eq

theorem execOpcNz_next {b : Byte} :
    execOpcNz b s = .next t ↔
      (s.rx.state = .opc ∧ s.rx.remaining ≠ 0) ∧
        t = s.advance { s.rx with opcode := b, checksum := s.rx.checksum ^^^ b, state := .pay } :=
  guarded_next_eq

theorem storePayloadByte_next_iff {b : Byte} {st : RxState} :
    s.storePayloadByte b st = .next t ↔
      s.rx.payload.length < 255 ∧ t = s.advance { s.rx.takePayloadByte b with state := st } :=
  ⟨State.storePayloadByte_next, fun h => h.2 ▸ State.storePayloadByte_of_room h.1 b st⟩

theorem execPayMore_next {b : Byte} :
    execPayMore b s = .next t ↔
      (s.rx.state = .pay ∧ s.rx.remaining ≠ 1) ∧ s.rx.remaining ≠ 0 ∧ s.rx.payload.length < 255 ∧
        t = s.advance { s.rx.takePayloadByte b with state := .pay } := by
  rw [execPayMore, guarded_next, ← storePayloadByte_next_iff]
  by_cases h : s.rx.remaining = 0
  · simp [h]
  · rw [if_neg h]; simp only [ne_eq, h, not_false_eq_true, true_and]

theorem execPayLast_next {b : Byte} :
    execPayLast b s = .next t ↔
      (s.rx.state = .pay ∧ s.rx.remaining = 1) ∧ s.rx.payload.length < 255 ∧
        t = s.advance { s.rx.takePayloadByte b with state := .chk } := by
  rw [execPayLast, guarded_next, ← storePayloadByte_next_iff]

theorem execChkOk_next {b : Byte} :
    execChkOk b s = .next t ↔
      (s.rx.state = .chk ∧ b = s.rx.checksum) ∧ ∃ d, s.rx.direction = some d ∧ t = s.emitFrame d := by
  rw [execChkOk, guarded_next]
  cases s.rx.direction with
  | none => simp
  | some d => simp only [next_eq, Option.some.injEq, exists_eq_left']

theorem execChkBad_next {b : Byte} :
    execChkBad b s = .next t ↔
      (s.rx.state = .chk ∧ b ≠ s.rx.checksum) ∧ t = s.raise (.checksumMismatch b s.rx.checksum) :=
  guarded_next_eq

theorem execWiresize_next {n : Byte} :
    execWiresize n s = .next t ↔ t = { s with txOut := .size (6 + n.toNat) } :=
  next_eq

theorem execCksum_next (d : Direction) {n op : Byte} :
    execCksum d n op s = .next t ↔ t = { s with txOut := .checksum (wireChecksum n op (txPayload n s)) } := by
  rw [execCksum, next_eq, accumulate_eq, show (0x00 : Byte) ^^^ n = n from BitVec.zero_xor]; rfl

theorem execEncodeOk_next {d : Direction} {n op : Byte} {l : BufLen} :
    execEncodeOk d n op l s = .next t ↔
      l.toNat = 6 + n.toNat ∧
        t = { s with
              txbuf := Memory.writeAll s.txbuf (encodeStores n (txFrame d n op s))
              txOut := .encoded .ok } :=
  guarded_next_eq

theorem execEncodeErr_next (d : Direction) {n : Byte} (op : Byte) {l : BufLen} :
    execEncodeErr d n op l s = .next t ↔ l.toNat ≠ 6 + n.toNat ∧ t = { s with txOut := .encoded .error } :=
  guarded_next_eq

/-- An RX operation does not look at the pending inputs. -/
theorem exec_rx_withInputs {i : Instr} (l : List Input) (hi : i.isRx = true) (he : exec i s = .next t) :
    exec i (s.withInputs l) = .next (t.withInputs l) := by
  cases i <;> try exact Bool.noConfusion hi
  case reset => obtain rfl := execReset_next.1 he; rfl
  case idleQuery => obtain rfl := execIdleQuery_next.1 he; rfl
  case p1Match => obtain ⟨h, rfl⟩ := execP1Match_next.1 he; exact execP1Match_next.2 ⟨h, rfl⟩
  case p1Skip b => obtain ⟨h, rfl⟩ := execP1Skip_next.1 he; exact execP1Skip_next.2 ⟨h, rfl⟩
  case p2Match => obtain ⟨h, rfl⟩ := execP2Match_next.1 he; exact execP2Match_next.2 ⟨h, rfl⟩
  case p2Miss b => obtain ⟨h, rfl⟩ := execP2Miss_next.1 he; exact execP2Miss_next.2 ⟨h, rfl⟩
  case dirTo => obtain ⟨h, rfl⟩ := storeDirection_next.1 he; exact storeDirection_next.2 ⟨h, rfl⟩
  case dirFrom => obtain ⟨h, rfl⟩ := storeDirection_next.1 he; exact storeDirection_next.2 ⟨h, rfl⟩
  case dirUns => obtain ⟨h, rfl⟩ := storeDirection_next.1 he; exact storeDirection_next.2 ⟨h, rfl⟩
  case dirBad b => obtain ⟨h, rfl⟩ := execDirBad_next.1 he; exact execDirBad_next.2 ⟨h, rfl⟩
  case len b => obtain ⟨h, rfl⟩ := execLen_next.1 he; exact execLen_next.2 ⟨h, rfl⟩
  case opcZ b => obtain ⟨h, rfl⟩ := execOpcZ_next.1 he; exact execOpcZ_next.2 ⟨h, rfl⟩
  case opcNz b => obtain ⟨h, rfl⟩ := execOpcNz_next.1 he; exact execOpcNz_next.2 ⟨h, rfl⟩
  case payMore b => obtain ⟨h, h1, h2, rfl⟩ := execPayMore_next.1 he; exact execPayMore_next.2 ⟨h, h1, h2, rfl⟩
  case payLast b => obtain ⟨h, h1, rfl⟩ := execPayLast_next.1 he; exact execPayLast_next.2 ⟨h, h1, rfl⟩
  case chkOk b => obtain ⟨h, d, hd, rfl⟩ := execChkOk_next.1 he; exact execChkOk_next.2 ⟨h, d, hd, rfl⟩
  case chkBad b => obtain ⟨h, rfl⟩ := execChkBad_next.1 he; exact execChkBad_next.2 ⟨h, rfl⟩

end Sys2Proof.Machine
end

