-- ==== Sys2Proof/Laws/Memory.lean ====
section
/-! SUPPORT. Laws of the caller's memories: a read after a write, and that every write keeps the canonical form. -/

namespace Sys2Proof.Machine

theorem Memory.read_of_below {m : Memory} {a : Nat} (h : ∀ c ∈ m, a < c.1) :
    Memory.read m a = Config.UNWRITTEN := by
  induction m with
  | nil => rfl
  | cons c rest ih =>
    obtain ⟨k, v⟩ := c
    have hk : a < k := h (k, v) (by simp)
    rw [Memory.read, if_neg (by omega)]
    exact ih fun c hc => h c (by simp [hc])

theorem Memory.WellFormed.tail {c : Host.Cell} {m : Memory} (h : Memory.WellFormed (c :: m)) :
    Memory.WellFormed m :=
  ⟨(List.pairwise_cons.1 h.1).2, fun x hx => h.2 x (by simp [hx])⟩

theorem Memory.WellFormed.head_lt {c : Host.Cell} {m : Memory} (h : Memory.WellFormed (c :: m)) :
    ∀ x ∈ m, c.1 < x.1 :=
  (List.pairwise_cons.1 h.1).1

theorem Memory.consCell_mem {a : Nat} {v : Byte} {m : Memory} {c : Host.Cell} (h : c ∈ Memory.consCell a v m) :
    c = (a, v) ∨ c ∈ m := by
  unfold Memory.consCell at h
  split at h
  · exact .inr h
  · simpa using h

theorem Memory.consCell_wellFormed {a : Nat} {v : Byte} {m : Memory} (h : Memory.WellFormed m)
    (ha : ∀ c ∈ m, a < c.1) : Memory.WellFormed (Memory.consCell a v m) := by
  unfold Memory.consCell
  split
  · exact h
  · exact ⟨List.pairwise_cons.2 ⟨ha, h.1⟩, by simp only [List.mem_cons]; rintro c (rfl | hc); exacts [‹_›, h.2 c hc]⟩

theorem Memory.read_consCell_self {a : Nat} {v : Byte} {m : Memory} (ha : ∀ c ∈ m, a < c.1) :
    Memory.read (Memory.consCell a v m) a = v := by
  unfold Memory.consCell
  split
  · rw [Memory.read_of_below ha]; symm; assumption
  · simp [Memory.read]

theorem Memory.read_consCell_other {a b : Nat} {v : Byte} {m : Memory} (hab : a ≠ b) :
    Memory.read (Memory.consCell a v m) b = Memory.read m b := by
  unfold Memory.consCell
  split
  · rfl
  · rw [Memory.read, if_neg hab]

theorem Memory.write_mem {m : Memory} {a : Nat} {v : Byte} {c : Host.Cell} (h : c ∈ Memory.write m a v) :
    c = (a, v) ∨ c ∈ m := by
  induction m with
  | nil => exact Memory.consCell_mem h
  | cons x rest ih =>
    obtain ⟨k, w⟩ := x
    rw [Memory.write] at h
    split at h
    · exact Memory.consCell_mem h
    split at h
    · rcases Memory.consCell_mem h with h | h
      · exact .inl h
      · exact .inr (by simp [h])
    · rcases List.mem_cons.1 h with h | h
      · exact .inr (by simp [h])
      · rcases ih h with h | h
        · exact .inl h
        · exact .inr (by simp [h])

/-- A write keeps the canonical form. -/
theorem Memory.write_wellFormed {m : Memory} (h : Memory.WellFormed m) (a : Nat) (v : Byte) :
    Memory.WellFormed (Memory.write m a v) := by
  induction m with
  | nil => exact Memory.consCell_wellFormed h (by simp)
  | cons x rest ih =>
    obtain ⟨k, w⟩ := x
    have hlt := h.head_lt
    rw [Memory.write]
    split
    · refine Memory.consCell_wellFormed h fun c hc => ?_
      rcases List.mem_cons.1 hc with rfl | hc
      · assumption
      · have := hlt c hc; simp only at this; omega
    split
    · subst_vars
      exact Memory.consCell_wellFormed h.tail hlt
    · obtain ⟨hp, hv⟩ := ih h.tail
      refine ⟨List.pairwise_cons.2 ⟨fun c hc => ?_, hp⟩, fun c hc => ?_⟩
      · rcases Memory.write_mem hc with rfl | hc
        · simp only; omega
        · exact hlt c hc
      · rcases List.mem_cons.1 hc with rfl | hc
        · exact h.2 _ (by simp)
        · exact hv c hc

theorem Memory.read_write_self {m : Memory} (h : Memory.WellFormed m) (a : Nat) (v : Byte) :
    Memory.read (Memory.write m a v) a = v := by
  induction m with
  | nil => exact Memory.read_consCell_self (by simp)
  | cons x rest ih =>
    obtain ⟨k, w⟩ := x
    have hlt := h.head_lt
    rw [Memory.write]
    split
    · refine Memory.read_consCell_self fun c hc => ?_
      rcases List.mem_cons.1 hc with rfl | hc
      · assumption
      · have := hlt c hc; simp only at this; omega
    split
    · subst_vars
      exact Memory.read_consCell_self hlt
    · rw [Memory.read, if_neg (by omega)]
      exact ih h.tail

theorem Memory.read_write_other {m : Memory} {a b : Nat} (hab : a ≠ b) (v : Byte) :
    Memory.read (Memory.write m a v) b = Memory.read m b := by
  induction m with
  | nil => exact Memory.read_consCell_other hab
  | cons x rest ih =>
    obtain ⟨k, w⟩ := x
    rw [Memory.write]
    split
    · exact Memory.read_consCell_other hab
    split
    · subst_vars
      rw [Memory.read_consCell_other hab, Memory.read, if_neg hab]
    · rw [Memory.read, Memory.read, ih]

theorem Memory.writeAll_wellFormed {m : Memory} (h : Memory.WellFormed m) (stores : List (Nat × Byte)) :
    Memory.WellFormed (Memory.writeAll m stores) := by
  induction stores generalizing m with
  | nil => exact h
  | cons c rest ih => exact ih (Memory.write_wellFormed h _ _)

@[simp] theorem Memory.writeAll_nil (m : Memory) : Memory.writeAll m [] = m := rfl

@[simp] theorem Memory.writeAll_cons (m : Memory) (c : Nat × Byte) (l : List (Nat × Byte)) :
    Memory.writeAll m (c :: l) = Memory.writeAll (Memory.write m c.1 c.2) l := rfl

theorem Memory.writeAll_append (m : Memory) (l k : List (Nat × Byte)) :
    Memory.writeAll m (l ++ k) = Memory.writeAll (Memory.writeAll m l) k := by
  simp [Memory.writeAll]

theorem Memory.read_writeAll_other {a : Nat} {stores : List (Nat × Byte)} (h : ∀ c ∈ stores, c.1 ≠ a)
    (m : Memory) : Memory.read (Memory.writeAll m stores) a = Memory.read m a := by
  induction stores generalizing m with
  | nil => rfl
  | cons c rest ih =>
    rw [Memory.writeAll_cons, ih (fun x hx => h x (by simp [hx])),
      Memory.read_write_other (h c (by simp))]

/-- Writes keep a memory canonical and inside its address space. -/
theorem Memory.Within.writeAll {m : Memory} {n : Nat} (h : Memory.Within m n) {stores : List (Nat × Byte)}
    (hs : ∀ c ∈ stores, c.1 < n) : Memory.Within (Memory.writeAll m stores) n := by
  induction stores generalizing m with
  | nil => exact h
  | cons c rest ih =>
    refine ih ⟨Memory.write_wellFormed h.canonical _ _, fun x hx => ?_⟩ fun x hx => hs x (by simp [hx])
    rcases Memory.write_mem hx with rfl | hx
    · exact hs c (by simp)
    · exact h.inRange x hx

theorem Memory.Within.write {m : Memory} {n a : Nat} (h : Memory.Within m n) (ha : a < n) (v : Byte) :
    Memory.Within (Memory.write m a v) n :=
  Memory.Within.writeAll (stores := [(a, v)]) h (by simpa using ha)

theorem Memory.within_nil (n : Nat) : Memory.Within [] n := ⟨⟨.nil, by simp⟩, by simp⟩

/-! Runs of consecutive cells. -/

theorem storesFrom_append (base : Nat) (p q : List Byte) :
    storesFrom base (p ++ q) = storesFrom base p ++ storesFrom (base + p.length) q := by
  induction p generalizing base with
  | nil => rfl
  | cons v vs ih => simp [storesFrom, ih, Nat.add_assoc, Nat.add_comm 1]

theorem storesFrom_fst (base : Nat) (p : List Byte) :
    (storesFrom base p).map Prod.fst = List.range' base p.length := by
  induction p generalizing base with
  | nil => rfl
  | cons v vs ih => simp [storesFrom, ih, List.range'_succ]

theorem storesFrom_snd (base : Nat) (p : List Byte) : (storesFrom base p).map Prod.snd = p := by
  induction p generalizing base with
  | nil => rfl
  | cons v vs ih => simp [storesFrom, ih]

theorem mem_storesFrom {base : Nat} {p : List Byte} {c : Nat × Byte} (h : c ∈ storesFrom base p) :
    base ≤ c.1 ∧ c.1 < base + p.length := by
  have : c.1 ∈ (storesFrom base p).map Prod.fst := List.mem_map_of_mem h
  rw [storesFrom_fst, List.mem_range'_1] at this
  exact this

theorem Memory.readFrom_length (m : Memory) (base n : Nat) : (Memory.readFrom m base n).length = n := by
  induction n generalizing base with
  | zero => rfl
  | succ n ih => simp [Memory.readFrom, ih]

theorem Memory.readFrom_congr {m m' : Memory} {base n : Nat}
    (h : ∀ a, base ≤ a → a < base + n → Memory.read m a = Memory.read m' a) :
    Memory.readFrom m base n = Memory.readFrom m' base n := by
  induction n generalizing base with
  | zero => rfl
  | succ n ih =>
    rw [Memory.readFrom, Memory.readFrom, h base (by omega) (by omega),
      ih fun a h1 h2 => h a (by omega) (by omega)]

theorem Memory.readFrom_getElem (m : Memory) (base n i : Nat) (h : i < (Memory.readFrom m base n).length) :
    (Memory.readFrom m base n)[i] = Memory.read m (base + i) := by
  induction n generalizing base i with
  | zero => simp [Memory.readFrom] at h
  | succ n ih =>
    cases i with
    | zero => simp [Memory.readFrom]
    | succ i => simp [Memory.readFrom, ih, Nat.add_comm, Nat.add_left_comm]

/-- Reading back a run of cells just written. -/
theorem Memory.readFrom_writeAll_storesFrom {m : Memory} (h : Memory.WellFormed m) (base : Nat) (p : List Byte) :
    Memory.readFrom (Memory.writeAll m (storesFrom base p)) base p.length = p := by
  induction p generalizing base m with
  | nil => rfl
  | cons v vs ih =>
    rw [storesFrom, Memory.writeAll_cons, List.length_cons, Memory.readFrom,
      ih (Memory.write_wellFormed h _ _),
      Memory.read_writeAll_other (fun c hc => by have := mem_storesFrom hc; omega),
      Memory.read_write_self h]

end Sys2Proof.Machine
end

