-- ==== Sys2Proof/Laws/PerInstr.lean ====
section
/-! SUPPORT. The per-instruction family of LAWS.json: the word of an operation fits the `match` and `mask` columns of its
row of the opcode table (30_encoding.md R56, R57). -/

namespace Sys2Proof.Laws.MatchesRow

/-- An RX word that fits a row. -/
def RxFits (o : OpWord) (pattern mask : RxWord) : Prop := ∃ w, o = .rx w ∧ w &&& mask = pattern

/-- A TX word that fits a row. -/
def TxFits (o : OpWord) (pattern mask : TxWord) : Prop := ∃ w, o = .tx w ∧ w &&& mask = pattern

/-- The word of an operation fits its row of spec/opcode_table.json. -/
def Statement (i : Instr) : Prop :=
  match i with
  | .reset => RxFits (encode i) 0x0800 0x1800
  | .idleQuery => RxFits (encode i) 0x1000 0x1800
  | .p1Match => RxFits (encode i) 0x0024 0x1FFF
  | .p1Skip _ => RxFits (encode i) 0x0000 0x1F00
  | .p2Match => RxFits (encode i) 0x014D 0x1FFF
  | .p2Miss _ => RxFits (encode i) 0x0100 0x1F00
  | .dirTo => RxFits (encode i) 0x023C 0x1FFF
  | .dirFrom => RxFits (encode i) 0x023E 0x1FFF
  | .dirUns => RxFits (encode i) 0x0221 0x1FFF
  | .dirBad _ => RxFits (encode i) 0x0200 0x1F00
  | .len _ => RxFits (encode i) 0x0300 0x1F00
  | .opcZ _ => RxFits (encode i) 0x0400 0x1F00
  | .opcNz _ => RxFits (encode i) 0x0400 0x1F00
  | .payMore _ => RxFits (encode i) 0x0500 0x1F00
  | .payLast _ => RxFits (encode i) 0x0500 0x1F00
  | .chkOk _ => RxFits (encode i) 0x0600 0x1F00
  | .chkBad _ => RxFits (encode i) 0x0600 0x1F00
  | .wiresize _ => TxFits (encode i) 0x000000000 0xC00000000
  | .cksum _ _ _ => TxFits (encode i) 0x400000000 0xC00000000
  | .encodeOk _ _ _ _ => TxFits (encode i) 0x800000000 0xC00000000
  | .encodeErr _ _ _ _ => TxFits (encode i) 0x800000000 0xC00000000

theorem txWord_and_op (op d : BitVec 2) (l o : Byte) (n : BufLen) :
    txWord op d l o n &&& 0xC00000000 = txWord op 0 0 0 0 := by
  have h3 : ∀ x : BitVec 2, x &&& 3 = x := by decide
  rw [show (0xC00000000 : TxWord) = txWord 3 0 0 0 0 by decide, txWord_and, h3]
  simp only [show ∀ x : BitVec 2, x &&& 0 = 0 by decide, show ∀ x : Byte, x &&& 0 = 0 from fun _ => BitVec.and_zero,
    show ∀ x : BufLen, x &&& 0 = 0 from fun _ => BitVec.and_zero]

theorem reset : Statement (.reset) := ⟨_, rfl, rxWord_and_op _ _ _⟩

theorem idleQuery : Statement (.idleQuery) := ⟨_, rfl, rxWord_and_op _ _ _⟩

theorem p1Match : Statement (.p1Match) := ⟨_, rfl, rxWord_and_all _ _ _⟩

theorem p1Skip (b : Byte) : Statement (.p1Skip b) := ⟨_, rfl, rxWord_and_state _ _ _⟩

theorem p2Match : Statement (.p2Match) := ⟨_, rfl, rxWord_and_all _ _ _⟩

theorem p2Miss (b : Byte) : Statement (.p2Miss b) := ⟨_, rfl, rxWord_and_state _ _ _⟩

theorem dirTo : Statement (.dirTo) := ⟨_, rfl, rxWord_and_all _ _ _⟩

theorem dirFrom : Statement (.dirFrom) := ⟨_, rfl, rxWord_and_all _ _ _⟩

theorem dirUns : Statement (.dirUns) := ⟨_, rfl, rxWord_and_all _ _ _⟩

theorem dirBad (b : Byte) : Statement (.dirBad b) := ⟨_, rfl, rxWord_and_state _ _ _⟩

theorem len (b : Byte) : Statement (.len b) := ⟨_, rfl, rxWord_and_state _ _ _⟩

theorem opcZ (b : Byte) : Statement (.opcZ b) := ⟨_, rfl, rxWord_and_state _ _ _⟩

theorem opcNz (b : Byte) : Statement (.opcNz b) := ⟨_, rfl, rxWord_and_state _ _ _⟩

theorem payMore (b : Byte) : Statement (.payMore b) := ⟨_, rfl, rxWord_and_state _ _ _⟩

theorem payLast (b : Byte) : Statement (.payLast b) := ⟨_, rfl, rxWord_and_state _ _ _⟩

theorem chkOk (b : Byte) : Statement (.chkOk b) := ⟨_, rfl, rxWord_and_state _ _ _⟩

theorem chkBad (b : Byte) : Statement (.chkBad b) := ⟨_, rfl, rxWord_and_state _ _ _⟩

theorem wiresize (n : Byte) : Statement (.wiresize n) := ⟨_, rfl, txWord_and_op _ _ _ _ _⟩

theorem cksum (d : Direction) (n op : Byte) : Statement (.cksum d n op) := ⟨_, rfl, txWord_and_op _ _ _ _ _⟩

theorem encodeOk (d : Direction) (n op : Byte) (l : BufLen) : Statement (.encodeOk d n op l) := ⟨_, rfl, txWord_and_op _ _ _ _ _⟩

theorem encodeErr (d : Direction) (n op : Byte) (l : BufLen) : Statement (.encodeErr d n op l) := ⟨_, rfl, txWord_and_op _ _ _ _ _⟩

end Sys2Proof.Laws.MatchesRow
end

