-- ==== Sys2Proof/Laws/Step.lean ====
section
/-! SUPPORT. What a step does with each kind of input, and runs over bytes. -/

namespace Sys2Proof.Machine

theorem step_pause {s : State} (h : s.inputs = []) : step s = .next s := by
  simp [step, State.fetch, h]

theorem step_op {s : State} {r : Request} {rest : List Input} (h : s.inputs = .op r :: rest) :
    step s =
      match r.decode s.rx with
      | .ok i => exec i (s.withInputs rest)
      | .error e => .refused (.reservedWord e) := by
  simp only [step, State.fetch, h, State.take, State.withInputs_rx]
  cases r.decode s.rx <;> rfl

theorem step_hwReset {s : State} {c : Option Request} {rest : List Input} (h : s.inputs = .hwReset c :: rest) :
    step s = execReset (s.withInputs rest) := by
  simp [step, State.fetch, h, State.take]

theorem step_callerWrite {s : State} {sp : CallerSpace} {a : Nat} {v : Byte} {rest : List Input}
    (h : s.inputs = .callerWrite sp a v :: rest) : step s = (s.withInputs rest).callerWrite sp a v := by
  simp [step, State.fetch, h, State.take]

/-- A presented operation runs in the state it is presented in. -/
theorem step_present (s : State) (r : Request) :
    step (s.present r) =
      match r.decode s.rx with
      | .ok i => exec i s
      | .error e => .refused (.reservedWord e) :=
  step_op (s := s.present r) (rest := s.inputs) rfl

section Push
variable (r : RxRegs) (b : Byte)

/-- The class of a `PUSH` in each state. -/
theorem push_decode :
    (Request.rx 0 b).decode r =
      .ok (match r.state with
        | .p1 => if b = 0x24#8 then .p1Match else .p1Skip b
        | .p2 => if b = 0x4D#8 then .p2Match else .p2Miss b
        | .dir =>
          if b = 0x3C#8 then .dirTo else if b = 0x3E#8 then .dirFrom else if b = 0x21#8 then .dirUns else .dirBad b
        | .len => .len b
        | .opc => if r.remaining = 0#8 then .opcZ b else .opcNz b
        | .pay => if r.remaining = 1#8 then .payLast b else .payMore b
        | .chk => if b = r.checksum then .chkOk b else .chkBad b) := by
  simp only [Request.decode, RxRegs.word]
  cases r.state
  · exact decodeRx_p1 _ b
  · exact decodeRx_p2 _ b
  · exact decodeRx_dir _ b
  · exact decodeRx_len _ b
  · exact decodeRx_opc _ b
  · exact decodeRx_pay _ b
  · exact decodeRx_chk _ b

end Push

@[simp] theorem feed_nil (s : State) : feed [] s = some ([], s) := rfl

/-- One byte of a run whose step answers a next state. -/
theorem feed_cons {b : Byte} {bs : List Byte} {s t : State} (h : step (s.present (.rx 0 b)) = .next t) :
    feed (b :: bs) s = (feed bs t).map (fun p => (t.rxOut :: p.1, p.2)) := by
  rw [feed, h]

theorem feed_append_of_some {bs cs : List Byte} {s t : State} {o : List RxOutput} (h : feed bs s = some (o, t)) :
    feed (bs ++ cs) s = (feed cs t).map (fun p => (o ++ p.1, p.2)) := by
  induction bs generalizing s o with
  | nil => simp at h; obtain ⟨rfl, rfl⟩ := h; simp
  | cons b bs ih =>
    rw [feed] at h
    rw [List.cons_append, feed]
    split at h
    · rename_i u hu
      simp only [Option.map_eq_some_iff, Prod.mk.injEq, Prod.exists] at h
      obtain ⟨o', t', h1, rfl, rfl⟩ := h
      simp only [ih h1, Option.map_map, Function.comp_def, List.cons_append]
    · cases h
    · cases h

/-- What an RX request decodes to, by its `rxop`. -/
theorem Request.decode_rx_cases (r : RxRegs) (o : BitVec 2) (b : Byte) :
    (o = 0 ∧ (Request.rx o b).decode r = (Request.rx 0 b).decode r) ∨ (o = 1 ∧ (Request.rx o b).decode r = .ok .reset) ∨
    (o = 2 ∧ (Request.rx o b).decode r = .ok .idleQuery) ∨ (o = 3 ∧ (Request.rx o b).decode r = .error .reservedRxop) := by
  rcases rxOp_cases o with rfl | rfl | rfl | rfl
  · exact .inl ⟨rfl, rfl⟩
  · exact .inr (.inl ⟨rfl, decodeRx_reset _ _ _⟩)
  · exact .inr (.inr (.inl ⟨rfl, decodeRx_idleQuery _ _ _⟩))
  · exact .inr (.inr (.inr ⟨rfl, decodeRx_reservedRxop _ _ _⟩))

/-- A `PUSH` decodes to one of its classes. -/
theorem push_isRx (r : RxRegs) (b : Byte) : ∃ i, (Request.rx 0 b).decode r = .ok i ∧ i.isRx = true := by
  rw [push_decode]
  refine ⟨_, rfl, ?_⟩
  cases r.state <;> dsimp only <;> (repeat' split) <;> rfl

/-- One step of a run. -/
theorem run_next (M : Host.Core) {k : Nat} {s t : M.State} (h : M.step s = .next t) : M.run (k + 1) s = M.run k t := by
  rw [Host.Core.run, h]

theorem core_run_next {k : Nat} {s t : State} (h : step s = .next t) :
    Host.Core.run Sys2Proof.core (k + 1) s = Host.Core.run Sys2Proof.core k t :=
  run_next Sys2Proof.core h

/-- A run in two parts. -/
theorem run_append (M : Host.Core) (j k : Nat) (s t : M.State) (h : M.run j s = .next t) :
    M.run (j + k) s = M.run k t := by
  induction j generalizing s with
  | zero => rw [Nat.zero_add]; rw [Host.Core.run] at h; cases h; rfl
  | succ j ih =>
    rw [Host.Core.run] at h
    rw [Nat.succ_add, Host.Core.run]
    split at h
    · exact ih _ h
    · cases h
    · cases h

/-- The caller's writes of a payload into TXSRC, run one by one. -/
theorem run_callerWrites (s : State) (base : Nat) (p : List Byte) (rest : List Input) (hb : base + p.length ≤ 255) :
    Host.Core.run Sys2Proof.core p.length
        { s with inputs := (storesFrom base p).map (fun c => Input.callerWrite .txsrc c.1 c.2) ++ rest } =
      .next { s with inputs := rest, txsrc := Memory.writeAll s.txsrc (storesFrom base p) } := by
  induction p generalizing base s with
  | nil => rfl
  | cons b p ih =>
    simp only [List.length_cons] at hb
    have h1 : step { s with
          inputs := (storesFrom base (b :: p)).map (fun c => Input.callerWrite .txsrc c.1 c.2) ++ rest } =
        .next { s with
          inputs := (storesFrom (base + 1) p).map (fun c => Input.callerWrite .txsrc c.1 c.2) ++ rest
          txsrc := Memory.write s.txsrc base b } := by
      rw [step_callerWrite (sp := .txsrc) (a := base) (v := b)
        (rest := (storesFrom (base + 1) p).map (fun c => Input.callerWrite .txsrc c.1 c.2) ++ rest) rfl]
      exact if_pos (show base < 255 by omega)
    exact (core_run_next h1).trans (ih { s with txsrc := Memory.write s.txsrc base b } (base + 1) (by omega))

end Sys2Proof.Machine
end

