-- ==== Sys2Proof/Laws/Push.lean ====
section
/-! SUPPORT. `PUSH` in the states of 10_state.md R17 as a pure function of the registers and the byte, with the step
proved equal to it, and runs over bytes with it. -/

namespace Sys2Proof.Machine

/-- The registers after a `PUSH` in a state of 10_state.md R17 (40_decoder.md R68). -/
def RxRegs.pushed (r : RxRegs) (b : Byte) : RxRegs :=
  match r.state with
  | .p1 => if b = PRE1 then { r with state := .p2 } else RxRegs.initial
  | .p2 => if b = PRE2 then { r with state := .dir } else RxRegs.initial
  | .dir =>
    match Direction.ofByte b with
    | some d => { r with direction := some d, state := .len }
    | none => RxRegs.initial
  | .len => { r with remaining := b, checksum := r.checksum ^^^ b, state := .opc }
  | .opc => { r with opcode := b, checksum := r.checksum ^^^ b, state := if r.remaining = 0 then .chk else .pay }
  | .pay => { r.takePayloadByte b with state := if r.remaining = 1 then .chk else .pay }
  | .chk => RxRegs.initial

/-- The result of a `PUSH` in a state of 10_state.md R17. -/
def RxRegs.answer (r : RxRegs) (b : Byte) : RxOutput :=
  match r.state with
  | .p1 => if b = PRE1 then quiet else .push .noFrame .badPreamble1
  | .p2 => if b = PRE2 then quiet else .push .noFrame .badPreamble2
  | .dir => if Direction.ofByte b = none then .push .noFrame .badDirection else quiet
  | .len => quiet
  | .opc => quiet
  | .pay => quiet
  | .chk =>
    if b = r.checksum then .push (.frame ⟨r.opcode, r.direction.getD .toDevice, r.payload⟩) .diagNone
    else .push (.error b r.checksum) .diagNone

/-- The step of a `PUSH` in a state of 10_state.md R17 is the pure function. -/
theorem step_push {s : State} (hi : s.rx.Inv) (b : Byte) :
    step (s.present (.rx 0 b)) = .next { s with rx := s.rx.pushed b, rxOut := s.rx.answer b } := by
  rw [step_present, push_decode]
  obtain ⟨⟨st, dir, opc, rem, pl, ck⟩, ts, tb, ins, ro, xo⟩ := s
  cases st
  · dsimp only
    by_cases h : b = 0x24#8
    · subst h; rfl
    · rw [if_neg h]
      refine execP1Skip_next.2 ⟨⟨rfl, h⟩, ?_⟩
      have h : b ≠ PRE1 := h
      simp only [RxRegs.pushed, RxRegs.answer]
      rw [if_neg h, if_neg h]; rfl
  · dsimp only
    by_cases h : b = 0x4D#8
    · subst h; rfl
    · rw [if_neg h]
      refine execP2Miss_next.2 ⟨⟨rfl, h⟩, ?_⟩
      have h : b ≠ PRE2 := h
      simp only [RxRegs.pushed, RxRegs.answer]
      rw [if_neg h, if_neg h]; rfl
  · dsimp only
    by_cases h1 : b = 0x3C#8
    · subst h1; rfl
    by_cases h2 : b = 0x3E#8
    · subst h2; rfl
    by_cases h3 : b = 0x21#8
    · subst h3; rfl
    have h := Direction.ofByte_eq_none.2 ⟨h1, h2, h3⟩
    rw [if_neg h1, if_neg h2, if_neg h3]
    refine execDirBad_next.2 ⟨⟨rfl, h⟩, ?_⟩
    simp only [RxRegs.pushed, RxRegs.answer, h]; rfl
  · rfl
  · dsimp only
    by_cases h : rem = 0#8
    · subst h; rfl
    · rw [if_neg h]
      refine execOpcNz_next.2 ⟨⟨rfl, h⟩, ?_⟩
      have h : rem ≠ 0 := h
      simp only [RxRegs.pushed, RxRegs.answer]
      rw [if_neg h]; rfl
  · obtain ⟨-, h0, hl, -⟩ := hi
    dsimp only [RxRegs.declaredLength] at h0 hl
    have hp : pl.length < 255 := by omega
    dsimp only
    by_cases h : rem = 1#8
    · rw [if_pos h]; subst h
      exact execPayLast_next.2 ⟨⟨rfl, rfl⟩, hp, rfl⟩
    · rw [if_neg h]
      refine execPayMore_next.2 ⟨⟨rfl, h⟩, ?_, hp, ?_⟩
      · rintro rfl; simp at h0
      · have h : rem ≠ 1 := h
        simp only [RxRegs.pushed, RxRegs.answer]
        rw [if_neg h]; rfl
  · obtain ⟨hd, -⟩ := hi
    obtain ⟨d, rfl⟩ := Option.ne_none_iff_exists'.1 hd
    dsimp only
    by_cases h : b = ck
    · rw [if_pos h]
      refine execChkOk_next.2 ⟨⟨rfl, h⟩, d, rfl, ?_⟩
      simp only [RxRegs.pushed, RxRegs.answer]
      rw [if_pos h]; rfl
    · rw [if_neg h]
      refine execChkBad_next.2 ⟨⟨rfl, h⟩, ?_⟩
      simp only [RxRegs.pushed, RxRegs.answer]
      rw [if_neg h]; rfl

theorem RxRegs.initial_inv : RxRegs.initial.Inv := rfl

/-- A `PUSH` keeps the table of 10_state.md R17. -/
theorem RxRegs.pushed_inv {r : RxRegs} (hi : r.Inv) (b : Byte) : (r.pushed b).Inv := by
  obtain ⟨st, dir, opc, rem, pl, ck⟩ := r
  cases st
  · simp only [RxRegs.Inv, RxRegs.mk.injEq] at hi
    obtain ⟨-, rfl, rfl, rfl, rfl, rfl⟩ := hi
    simp only [RxRegs.pushed]; split <;> rfl
  · simp only [RxRegs.Inv, RxRegs.mk.injEq] at hi
    obtain ⟨-, rfl, rfl, rfl, rfl, rfl⟩ := hi
    simp only [RxRegs.pushed]; split <;> rfl
  · simp only [RxRegs.Inv, RxRegs.mk.injEq] at hi
    obtain ⟨-, rfl, rfl, rfl, rfl, rfl⟩ := hi
    simp only [RxRegs.pushed]; split
    · exact ⟨by simp, rfl, rfl, rfl, rfl⟩
    · rfl
  · obtain ⟨hd, rfl, rfl, rfl, rfl⟩ := hi
    exact ⟨hd, rfl, rfl, BitVec.zero_xor⟩
  · obtain ⟨hd, hop, hpl, hck⟩ := hi
    dsimp only at hd hop hpl hck
    subst hop hpl hck
    simp only [RxRegs.pushed]
    split
    · subst_vars
      exact ⟨hd, rfl, by simp [RxRegs.declaredLength], by simp [RxRegs.foldSoFar, RxRegs.declaredLength, wireChecksum]⟩
    · rename_i h
      refine ⟨hd, ?_, ?_, by simp [RxRegs.foldSoFar, RxRegs.declaredLength, wireChecksum]⟩
      · have : ck.toNat ≠ 0 := fun h' => h (BitVec.eq_of_toNat_eq h')
        dsimp only; omega
      · have := ck.isLt; simp [RxRegs.declaredLength]; omega
  · obtain ⟨hd, h0, hl, hc⟩ := hi
    dsimp only [RxRegs.declaredLength] at hd h0 hl
    have hc' : ck = RxRegs.foldSoFar ⟨.pay, dir, opc, rem, pl, 0⟩ := hc
    clear hc; subst hc'
    have hdl : (pl ++ [b]).length + (rem - 1).toNat = pl.length + rem.toNat := by
      have := rem.isLt
      rw [BitVec.toNat_sub, List.length_append]; simp; omega
    have hck : (RxRegs.foldSoFar ⟨.pay, dir, opc, rem, pl, 0⟩) ^^^ b =
        RxRegs.foldSoFar ⟨.pay, dir, opc, rem - 1, pl ++ [b], 0⟩ := by
      unfold RxRegs.foldSoFar RxRegs.declaredLength wireChecksum
      dsimp only
      rw [hdl, fold_append, fold_cons, fold_nil, show b ^^^ 0 = b from BitVec.xor_zero, ← BitVec.xor_assoc]
    simp only [RxRegs.pushed]
    split
    · subst_vars
      refine ⟨hd, show (1 - 1 : Byte) = 0 by decide, ?_, hck⟩
      unfold RxRegs.declaredLength RxRegs.takePayloadByte; dsimp only; omega
    · rename_i h
      refine ⟨hd, ?_, ?_, hck⟩
      · have : rem.toNat ≠ 1 := fun h' => h (BitVec.eq_of_toNat_eq h')
        have := rem.isLt
        simp only [RxRegs.takePayloadByte, BitVec.toNat_sub]; simp; omega
      · unfold RxRegs.declaredLength RxRegs.takePayloadByte; dsimp only; omega
  · rfl

/-- The registers after several bytes. -/
def RxRegs.pushAll (r : RxRegs) : List Byte → RxRegs
  | [] => r
  | b :: bs => (r.pushed b).pushAll bs

/-- The results of several bytes. -/
def RxRegs.answers (r : RxRegs) : List Byte → List RxOutput
  | [] => []
  | b :: bs => r.answer b :: (r.pushed b).answers bs

theorem RxRegs.pushAll_inv {r : RxRegs} (h : r.Inv) (bs : List Byte) : (r.pushAll bs).Inv := by
  induction bs generalizing r with
  | nil => exact h
  | cons b bs ih => exact ih (RxRegs.pushed_inv h b)

theorem RxRegs.pushAll_append (r : RxRegs) (bs cs : List Byte) : r.pushAll (bs ++ cs) = (r.pushAll bs).pushAll cs := by
  induction bs generalizing r with
  | nil => rfl
  | cons b bs ih => exact ih _

theorem RxRegs.answers_append (r : RxRegs) (bs cs : List Byte) :
    r.answers (bs ++ cs) = r.answers bs ++ (r.pushAll bs).answers cs := by
  induction bs generalizing r with
  | nil => rfl
  | cons b bs ih => simp only [List.cons_append, RxRegs.answers, RxRegs.pushAll, ih]

theorem RxRegs.answers_length (r : RxRegs) (bs : List Byte) : (r.answers bs).length = bs.length := by
  induction bs generalizing r with
  | nil => rfl
  | cons b bs ih => simp [RxRegs.answers, ih]

/-- A run over bytes from a state of 10_state.md R17. -/
theorem feed_eq {s : State} (h : s.rx.Inv) (bs : List Byte) :
    feed bs s =
      some (s.rx.answers bs, { s with rx := s.rx.pushAll bs, rxOut := (s.rx.answers bs).getLastD s.rxOut }) := by
  induction bs generalizing s with
  | nil => rfl
  | cons b bs ih =>
    rw [feed_cons (step_push h b), ih (RxRegs.pushed_inv h b)]
    simp only [RxRegs.answers, RxRegs.pushAll, Option.map_some, List.getLastD_cons]


/-- The payload bytes of a frame, from PAY or after an empty frame's opcode. -/
theorem RxRegs.pushAll_payload {r : RxRegs} {p : List Byte} (hs : r.state = .pay) (hr : r.remaining.toNat = p.length)
    (hp : p ≠ []) :
    r.pushAll p = { r with state := .chk, remaining := 0, payload := r.payload ++ p, checksum := r.checksum ^^^ fold p }
      ∧ r.answers p = List.replicate p.length quiet := by
  induction p generalizing r with
  | nil => exact absurd rfl hp
  | cons b p ih =>
    obtain ⟨st, dir, opc, rem, pl, ck⟩ := r
    obtain rfl : st = .pay := hs
    simp only [List.length_cons] at hr
    have hans : (RxRegs.mk .pay dir opc rem pl ck).answer b = quiet := rfl
    rw [RxRegs.pushAll, RxRegs.answers, hans, List.length_cons, List.replicate_succ]
    cases p with
    | nil =>
      obtain rfl : rem = 1 := BitVec.eq_of_toNat_eq hr
      refine ⟨?_, rfl⟩
      simp [RxRegs.pushAll, RxRegs.pushed, RxRegs.takePayloadByte]
    | cons c p =>
      have h1 : rem ≠ 1 := by rintro rfl; simp at hr
      have hpush : (RxRegs.mk .pay dir opc rem pl ck).pushed b = ⟨.pay, dir, opc, rem - 1, pl ++ [b], ck ^^^ b⟩ := by
        simp only [RxRegs.pushed]; rw [if_neg h1]; rfl
      have hr' : (rem - 1).toNat = (c :: p).length := by
        have := rem.isLt
        rw [BitVec.toNat_sub]; simp at hr ⊢; omega
      obtain ⟨h2, h3⟩ := ih (r := ⟨.pay, dir, opc, rem - 1, pl ++ [b], ck ^^^ b⟩) rfl hr' (by simp)
      rw [hpush]
      refine ⟨?_, by rw [h3]⟩
      rw [h2]; simp [BitVec.xor_assoc]

/-- The bytes of a frame before its checksum, from the initial state. -/
theorem RxRegs.pushAll_frame {f : Frame} (h : f.WellFormed) :
    RxRegs.initial.pushAll f.bytes.dropLast = ⟨.chk, some f.direction, f.opcode, 0, f.payload, f.checksum⟩ ∧
      RxRegs.initial.answers f.bytes.dropLast = List.replicate (5 + f.payload.length) quiet := by
  have hb : f.bytes.dropLast = [PRE1, PRE2, f.direction.toByte, f.lenByte, f.opcode] ++ f.payload := by
    rw [Frame.bytes, List.dropLast_concat]
  have hn := Frame.lenByte_toNat h
  obtain ⟨op, d, p⟩ := f
  generalize hL : Frame.lenByte ⟨op, d, p⟩ = n at *
  have h4 : RxRegs.initial.pushAll [PRE1, PRE2, d.toByte, n] = ⟨.opc, some d, 0, n, [], n⟩ := by
    cases d <;> simp [RxRegs.pushAll, RxRegs.pushed, RxRegs.initial, Direction.ofByte_toByte]
  have a4 : RxRegs.initial.answers [PRE1, PRE2, d.toByte, n] = List.replicate 4 quiet := by
    cases d <;> rfl
  rw [hb, show [PRE1, PRE2, d.toByte, n, op] ++ p = [PRE1, PRE2, d.toByte, n] ++ (op :: p) from rfl,
    RxRegs.pushAll_append, RxRegs.answers_append, h4, a4]
  have hc : Frame.checksum ⟨op, d, p⟩ = n ^^^ op ^^^ fold p := by rw [Frame.checksum, hL]; rfl
  rw [hc]
  dsimp only at hn ⊢
  cases p with
  | nil =>
    obtain rfl : n = 0 := BitVec.eq_of_toNat_eq hn
    refine ⟨?_, rfl⟩
    simp [RxRegs.pushAll, RxRegs.pushed]
  | cons b p =>
    have h0 : n ≠ 0 := by rintro rfl; simp at hn
    have h5 : (RxRegs.mk .opc (some d) 0 n [] n).pushed op = ⟨.pay, some d, op, n, [], n ^^^ op⟩ := by
      simp only [RxRegs.pushed]; rw [if_neg h0]
    obtain ⟨h6, h7⟩ := RxRegs.pushAll_payload (r := ⟨.pay, some d, op, n, [], n ^^^ op⟩) rfl hn (by simp)
    rw [RxRegs.pushAll, RxRegs.answers, h5, h6, h7]
    refine ⟨rfl, ?_⟩
    change List.replicate 4 quiet ++ (List.replicate 1 quiet ++ List.replicate (p.length + 1) quiet) = _
    rw [List.replicate_append_replicate, List.replicate_append_replicate]
    congr 1; simp only [List.length_cons]; omega

/-- The step that takes a presented `PUSH`, in a state of 10_state.md R17. -/
theorem step_push_of_inputs {s : State} (hi : s.rx.Inv) {b : Byte} {rest : List Input} (h : s.inputs = .op (.rx 0 b) :: rest) :
    step s = .next { s with inputs := rest, rx := s.rx.pushed b, rxOut := s.rx.answer b } := by
  have := step_push (s := s.withInputs rest) hi b
  have e : (s.withInputs rest).present (.rx 0 b) = s := by
    rw [State.present, State.withInputs, ← h]
  rw [e] at this
  exact this

/-- A Frame handed out in a state of 10_state.md R17 is a Frame. -/
theorem RxRegs.answer_frame_wellFormed {r : RxRegs} (hi : r.Inv) {b : Byte} {f : Frame} {d : Diag} (h : r.answer b = .push (.frame f) d) :
    f.WellFormed := by
  obtain ⟨st, dir, opc, rem, pl, ck⟩ := r
  cases st <;> simp only [RxRegs.answer] at h
  case p1 => split at h <;> cases h
  case p2 => split at h <;> cases h
  case dir => split at h <;> cases h
  case len => cases h
  case opc => cases h
  case pay => cases h
  case chk =>
    split at h <;> cases h
    obtain ⟨-, -, hl, -⟩ := hi
    simp only [RxRegs.declaredLength] at hl
    exact show pl.length ≤ 255 by omega

end Sys2Proof.Machine
end

