-- ==== Sys2Proof/Laws/Tx.lean ====
section
/-! SUPPORT. The operands of a TX operation, and the writes of ENCODE.OK as a run of consecutive cells. -/

namespace Sys2Proof.Machine

/-- With the length byte that counts the payload, the writes of ENCODE.OK are the bytes of the frame at consecutive
cells from 0. -/
theorem encodeStores_eq {n : Byte} {f : Frame} (h : f.payload.length = n.toNat) :
    encodeStores n f = storesFrom 0 f.bytes := by
  have hn : f.lenByte = n := by rw [Frame.lenByte, h, BitVec.ofNat_toNat, BitVec.setWidth_eq]
  unfold encodeStores Frame.bytes
  rw [storesFrom_append, storesFrom_append, accumulate_eq, hn, Frame.checksum, hn, wireChecksum]
  simp only [storesFrom, List.length_append, List.length_cons, List.length_nil, h]
  rw [show 0 + (0 + 1 + 1 + 1 + 1 + 1 + n.toNat) = 5 + n.toNat by omega]

@[simp] theorem txPayload_length (n : Byte) (s : State) : (txPayload n s).length = n.toNat :=
  Memory.readFrom_length _ _ _

@[simp] theorem txFrame_payload (d : Direction) (n op : Byte) (s : State) : (txFrame d n op s).payload = txPayload n s :=
  rfl

theorem Memory.readFrom_getElem? (m : Memory) (base n i : Nat) (h : i < n) :
    (Memory.readFrom m base n)[i]? = some (Memory.read m (base + i)) := by
  rw [List.getElem?_eq_getElem (by rwa [Memory.readFrom_length]), Memory.readFrom_getElem]

/-- Reading back one of the cells of a run just written. -/
theorem Memory.read_writeAll_storesFrom {m : Memory} (h : Memory.WellFormed m) (p : List Byte) (i : Nat) (hi : i < p.length) :
    Memory.read (Memory.writeAll m (storesFrom 0 p)) i = p[i] := by
  have h1 := Memory.readFrom_getElem? (Memory.writeAll m (storesFrom 0 p)) 0 p.length i hi
  rw [Memory.readFrom_writeAll_storesFrom h 0 p, List.getElem?_eq_getElem hi, Nat.zero_add] at h1
  exact (Option.some.inj h1).symm

/-- The writes of ENCODE.OK stay inside TXBUF. -/
theorem Memory.within_encode {s : State} (h : Memory.Within s.txbuf Config.TXBUF_CELLS) (n : Byte) (f : Frame) (hf : f.payload.length = n.toNat) :
    Memory.Within (Memory.writeAll s.txbuf (encodeStores n f)) Config.TXBUF_CELLS := by
  refine h.writeAll fun c hc => ?_
  rw [encodeStores_eq hf] at hc
  have := mem_storesFrom hc
  rw [Frame.bytes_length] at this
  have := n.isLt
  simp only [Config.TXBUF_CELLS, Config.BUFLEN_W]; omega

end Sys2Proof.Machine
end

