-- ==== Sys2Proof/Tests/Slice0.lean ====
section
/-! SUPPORT. The model's own tests. Expected values are those of 95_test_vectors.md, or worked out by hand from the rule
named. The last part has, for each statement with hypotheses, concrete data that meet them. -/

namespace Sys2Proof.Tests

open Sys2Proof.Machine

/-! ## Helpers -/

/-- The machine after reset with given RX registers. -/
abbrev ofRx (r : RxRegs) : State := { State.reset with rx := r }

/-- A full RXBUF, by position, for the limits of the payload. -/
abbrev bytes255 : List Byte := List.replicate 255 0x24

abbrev rP1 : RxRegs := ⟨.p1, none, 0x00, 0, [], 0x00⟩
abbrev rP2 : RxRegs := ⟨.p2, none, 0x00, 0, [], 0x00⟩
abbrev rDir : RxRegs := ⟨.dir, none, 0x00, 0, [], 0x00⟩
abbrev rLen : RxRegs := ⟨.len, some .toDevice, 0x00, 0, [], 0x00⟩
abbrev rOpcZ : RxRegs := ⟨.opc, some .fromDevice, 0x00, 0, [], 0x00⟩
abbrev rOpcNz : RxRegs := ⟨.opc, some .toDevice, 0x00, 255, [], 0xFF⟩
abbrev rPay2 : RxRegs := ⟨.pay, some .toDevice, 0x02, 2, [], 0x00⟩
abbrev rPay255 : RxRegs := ⟨.pay, some .toDevice, 0x24, 255, [], 0xDB⟩
abbrev rPay1 : RxRegs := ⟨.pay, some .toDevice, 0x02, 1, [0xBE], 0xBE⟩
abbrev rChk : RxRegs := ⟨.chk, some .toDevice, 0x02, 0, [0xBE, 0xEF], 0x51⟩
abbrev rChk0 : RxRegs := ⟨.chk, some .fromDevice, 0x00, 0, [], 0x00⟩

/-- The registers and the result after one step with an RX request. -/
def rxStep (r : RxRegs) (rxop : BitVec 2) (b : Byte) : Option (RxRegs × RxOutput) :=
  match step { ofRx r with inputs := [.op (.rx rxop b)] } with
  | .next t => some (t.rx, t.rxOut)
  | .fault _ => none
  | .refused _ => none

/-- The result and the first cells of TXBUF after one step with a TX word. -/
def txStep (src buf : Memory) (w : TxWord) (cells : Nat) : Option (TxOutput × List Byte) :=
  match step { State.reset with txsrc := src, txbuf := buf, inputs := [.op (.tx w)] } with
  | .next t => some (t.txOut, Memory.readFrom t.txbuf 0 cells)
  | .fault _ => none
  | .refused _ => none

/-- The bytes 0xBE, 0xEF in TXSRC. -/
abbrev srcBeEf : Memory := [(0, 0xBE), (1, 0xEF)]

/-- Seven cells of TXBUF holding 0xAA. -/
abbrev bufAa : Memory := [(0, 0xAA), (1, 0xAA), (2, 0xAA), (3, 0xAA), (4, 0xAA), (5, 0xAA), (6, 0xAA)]

/-! ## Decoding: words written out from 30_encoding.md R56, R57 (V16, V24) -/

theorem test_decode_reset : decodeRx ⟨0, 0⟩ 0b0101111111111 = .ok .reset := by decide
theorem test_decode_idleQuery : decodeRx ⟨0, 0⟩ 0b1001000110100 = .ok .idleQuery := by decide
theorem test_decode_p1Match : decodeRx ⟨0, 0⟩ 0b0000000100100 = .ok .p1Match := by decide
theorem test_decode_p1Skip : decodeRx ⟨0, 0⟩ 0b0000001001101 = .ok (.p1Skip 0x4D) := by decide
theorem test_decode_p2Match : decodeRx ⟨0, 0⟩ 0b0000101001101 = .ok .p2Match := by decide
theorem test_decode_p2Miss : decodeRx ⟨0, 0⟩ 0b0000100100100 = .ok (.p2Miss 0x24) := by decide
theorem test_decode_dirTo : decodeRx ⟨0, 0⟩ 0b0001000111100 = .ok .dirTo := by decide
theorem test_decode_dirFrom : decodeRx ⟨0, 0⟩ 0b0001000111110 = .ok .dirFrom := by decide
theorem test_decode_dirUns : decodeRx ⟨0, 0⟩ 0b0001000100001 = .ok .dirUns := by decide
theorem test_decode_dirBad : decodeRx ⟨0, 0⟩ 0b0001000111101 = .ok (.dirBad 0x3D) := by decide
theorem test_decode_len : decodeRx ⟨0, 0⟩ 0b0001111111111 = .ok (.len 0xFF) := by decide
theorem test_decode_opcZ : decodeRx ⟨0, 0⟩ 0b0010001100100 = .ok (.opcZ 0x64) := by decide
theorem test_decode_opcNz : decodeRx ⟨1, 1⟩ 0b0010000000001 = .ok (.opcNz 0x01) := by decide
theorem test_decode_payMore : decodeRx ⟨2, 0⟩ 0b0010100100100 = .ok (.payMore 0x24) := by decide
theorem test_decode_payLast : decodeRx ⟨1, 0⟩ 0b0010100100100 = .ok (.payLast 0x24) := by decide
theorem test_decode_chkOk : decodeRx ⟨0, 0x51⟩ 0b0011001010001 = .ok (.chkOk 0x51) := by decide
theorem test_decode_chkBad : decodeRx ⟨0, 0x50⟩ 0b0011001010001 = .ok (.chkBad 0x51) := by decide
theorem test_decode_wiresize : decodeTx 0x0FF000000 = .ok (.wiresize 0xFF) := by decide
theorem test_decode_cksum : decodeTx 0x502020000 = .ok (.cksum .toDevice 0x02 0x02) := by decide
theorem test_decode_encodeOk : decodeTx 0xAFFC80105 = .ok (.encodeOk .fromDevice 0xFF 0xC8 0x0105) := by decide
theorem test_decode_encodeErr : decodeTx 0xBFFFE0104 = .ok (.encodeErr .unsupported 0xFF 0xFE 0x0104) := by decide

theorem test_decode_reserved :
    decodeRx ⟨0, 0⟩ 0x0700 = .error .reservedState ∧ decodeRx ⟨0, 0⟩ 0x1800 = .error .reservedRxop ∧
    decodeTx 0x802020008 = .error .noDirection ∧ decodeTx 0xC00000000 = .error .reservedTxop := by decide

theorem test_encode_words :
    encode (.encodeOk .unsupported 0x01 0xFF 0x0007) = .tx 0xB01FF0007 ∧
    encode (.cksum .toDevice 0x01 0x66) = .tx 0x501660000 ∧ encode (.chkOk 0x51) = .rx 0x0651 := by decide

/-! ## Well-formed terms: an ill-formed one for each check -/

theorem test_wf_p1Skip : ¬ (Instr.p1Skip 0x24).WellFormed ∧ (Instr.p1Skip 0x25).WellFormed := by decide
theorem test_wf_p2Miss : ¬ (Instr.p2Miss 0x4D).WellFormed ∧ (Instr.p2Miss 0x6D).WellFormed := by decide
theorem test_wf_dirBad :
    ¬ (Instr.dirBad 0x3C).WellFormed ∧ ¬ (Instr.dirBad 0x3E).WellFormed ∧ ¬ (Instr.dirBad 0x21).WellFormed ∧
    (Instr.dirBad 0x3D).WellFormed := by decide
theorem test_wf_encodeOk :
    ¬ (Instr.encodeOk .toDevice 0xFF 0 5).WellFormed ∧ (Instr.encodeOk .toDevice 0xFF 0 261).WellFormed := by decide
theorem test_wf_encodeErr :
    ¬ (Instr.encodeErr .toDevice 0xFF 0 261).WellFormed ∧ (Instr.encodeErr .toDevice 0xFF 0 5).WellFormed := by decide
theorem test_wf_frame :
    ¬ (Frame.mk 0 .toDevice (0x24 :: bytes255)).WellFormed ∧ (Frame.mk 0 .toDevice bytes255).WellFormed := by
  simp only [Frame.WellFormed, List.length_cons, List.length_replicate]; decide

/-! ## One step of each class (V16) -/

theorem test_p1Match : rxStep rP1 0 0x24 = some (rP2, .push .noFrame .diagNone) := by decide
theorem test_p1Skip : rxStep rP1 0 0x25 = some (rP1, .push .noFrame .badPreamble1) := by decide
theorem test_p2Match : rxStep rP2 0 0x4D = some (rDir, .push .noFrame .diagNone) := by decide
theorem test_p2Miss : rxStep rP2 0 0x24 = some (rP1, .push .noFrame .badPreamble2) := by decide
theorem test_dirTo : rxStep rDir 0 0x3C = some (rLen, .push .noFrame .diagNone) := by decide
theorem test_dirFrom :
    rxStep rDir 0 0x3E = some (⟨.len, some .fromDevice, 0, 0, [], 0⟩, .push .noFrame .diagNone) := by decide
theorem test_dirUns :
    rxStep rDir 0 0x21 = some (⟨.len, some .unsupported, 0, 0, [], 0⟩, .push .noFrame .diagNone) := by decide
theorem test_dirBad : rxStep rDir 0 0x24 = some (rP1, .push .noFrame .badDirection) := by decide
theorem test_len : rxStep rLen 0 0xFF = some (rOpcNz, .push .noFrame .diagNone) := by decide
theorem test_opcZ : rxStep rOpcZ 0 0x00 = some (rChk0, .push .noFrame .diagNone) := by decide
theorem test_opcNz : rxStep rOpcNz 0 0x24 = some (rPay255, .push .noFrame .diagNone) := by decide
theorem test_payMore : rxStep rPay2 0 0xBE = some (rPay1, .push .noFrame .diagNone) := by decide
theorem test_payMore_255 :
    rxStep rPay255 0 0xFF = some (⟨.pay, some .toDevice, 0x24, 254, [0xFF], 0x24⟩, .push .noFrame .diagNone) := by
  decide
theorem test_payLast : rxStep rPay1 0 0xEF = some (rChk, .push .noFrame .diagNone) := by decide
theorem test_chkOk :
    rxStep rChk 0 0x51 = some (rP1, .push (.frame ⟨0x02, .toDevice, [0xBE, 0xEF]⟩) .diagNone) := by decide
theorem test_chkOk_zero : rxStep rChk0 0 0x00 = some (rP1, .push (.frame ⟨0x00, .fromDevice, []⟩) .diagNone) := by
  decide
theorem test_chkBad : rxStep rChk 0 0x50 = some (rP1, .push (.error 0x50 0x51) .diagNone) := by decide
theorem test_chkBad_marker : rxStep rChk 0 0x24 = some (rP1, .push (.error 0x24 0x51) .diagNone) := by decide
theorem test_reset : rxStep rChk 1 0x00 = some (rP1, .none) := by decide
theorem test_idleQuery_true : rxStep rP1 2 0x00 = some (rP1, .idle true) := by decide
theorem test_idleQuery_false : rxStep rLen 2 0x00 = some (rLen, .idle false) := by decide

/-- `rxop` 3 is refused (V24). -/
theorem test_reserved_refused :
    step { ofRx rP1 with inputs := [.op (.rx 3 0)] } = .refused (.reservedWord .reservedRxop) := by rfl

/-! ## The TX operations (V18 to V23) -/

theorem test_wiresize : txStep [] [] 0x0FF000000 0 = some (.size 261, []) := by decide
theorem test_wiresize_256 : txStep [] [] 0x0FA000000 0 = some (.size 256, []) := by decide
theorem test_cksum : txStep srcBeEf [] 0x502020000 0 = some (.checksum 0x51, []) := by decide
theorem test_cksum_direction : txStep [(0, 0x80), (1, 0xFF)] [] 0x7027F0000 0 = some (.checksum 0x02, []) := by decide
theorem test_encodeOk :
    txStep srcBeEf bufAa 0x902020008 8 =
      some (.encoded .ok, [0x24, 0x4D, 0x3C, 0x02, 0x02, 0xBE, 0xEF, 0x51]) := by decide
/-- A longer old content stays beyond the six cells written (V20 first row). -/
theorem test_encodeOk_empty :
    txStep [] bufAa 0x900000006 7 = some (.encoded .ok, [0x24, 0x4D, 0x3C, 0x00, 0x00, 0x00, 0xAA]) := by decide
theorem test_encodeErr :
    txStep srcBeEf bufAa 0x902020007 7 = some (.encoded .error, [0xAA, 0xAA, 0xAA, 0xAA, 0xAA, 0xAA, 0xAA]) := by
  decide
/-- 261 and 5 agree modulo 256 (V23). -/
theorem test_encodeErr_wide : txStep [] bufAa 0xAFFC80005 1 = some (.encoded .error, [0xAA]) := by decide

/-! ## Inputs, presentation, notation -/

/-- The hardware reset wins over the `PUSH` presented with it (92_eei_decisions.md D8). -/
theorem test_hwReset :
    step { ofRx rChk with inputs := [.hwReset (some (.rx 0 0x51))], rxOut := .idle true } = .next (ofRx rP1) := by
  rfl

theorem test_callerWrite :
    step { State.reset with txsrc := srcBeEf, inputs := [.callerWrite .txsrc 0 0x00] } =
      .next { State.reset with txsrc := [(1, 0xEF)] } := by rfl

/-- The tie of the dispatch to the table numbering: PAY.MORE runs as the first operation (30_encoding.md R56). -/
theorem test_fetchWord :
    decodeTableWord 16 0x0524 = some (.payMore 0x24) ∧
    (State.reset.withFetchWord 16 0x0524).rx = ⟨.pay, some .toDevice, 0, 2, [], 2⟩ ∧
    (State.reset.withFetchWord 40 0x902020008).inputs = [.op (.tx 0x902020008)] := by decide

/-- 30_encoding.md R60's notation on the fixture (V1). -/
theorem test_render :
    (Operation.encode ⟨0x02, .toDevice, [0xBE, 0xEF]⟩ 8).render = "ENCODE <, 0x02, [0xBE, 0xEF], 8".toList ∧
    (RxResult.error 0x50 0x51).render =
      ("Error(ChecksumMismatch".toList ++ [Char.ofNat 123] ++ "expected=0x50, calculated=0x51".toList
        ++ [Char.ofNat 125] ++ ")".toList) := by decide

theorem test_frame_bytes :
    (Frame.mk 0xFF .unsupported [0x24]).bytes = [0x24, 0x4D, 0x21, 0x01, 0xFF, 0x24, 0xDA] := by decide

theorem test_result_codes :
    (RxResult.frame ⟨0x02, .fromDevice, [0xBE]⟩).encode = [.code 1, .byte 0x02, .code 2, .byte 0x01, .byte 0xBE] ∧
    RxResult.decode [.code 3] = none ∧ (RxResult.error 0 0).causeCode = 2 ∧ TxResult.error.causeCode = 1 := by decide

/-! ## States of the invariant -/

theorem inv_rP1 : rP1.Inv := rfl
theorem inv_rP2 : rP2.Inv := rfl
theorem inv_rDir : rDir.Inv := rfl
theorem inv_rLen : rLen.Inv := ⟨by decide, rfl, rfl, rfl, rfl⟩
theorem inv_rOpcZ : rOpcZ.Inv := ⟨by decide, rfl, rfl, rfl⟩
theorem inv_rOpcNz : rOpcNz.Inv := ⟨by decide, rfl, rfl, rfl⟩
theorem inv_rPay2 : rPay2.Inv := ⟨by decide, by decide, by decide, by decide⟩
theorem inv_rPay255 : rPay255.Inv := ⟨by decide, by decide, by decide, by decide⟩
theorem inv_rPay1 : rPay1.Inv := ⟨by decide, by decide, by decide, by decide⟩
theorem inv_rChk : rChk.Inv := ⟨by decide, by decide, by decide, by decide⟩

/-- A state of the RX invariant gives a state of the machine's invariant. -/
theorem inv_withInputs {r : RxRegs} (h : r.Inv) (l : List Input) : ({ ofRx r with inputs := l } : State).Inv :=
  ⟨h, Memory.within_nil _, Memory.within_nil _, fun _ _ h => by cases h⟩

/-! ## Witnesses: data that meet the hypotheses of each statement, clause by clause -/

theorem witness_DecodeEncodeAgree :
    (Instr.encodeOk .unsupported 0xFF 0xFE 261).WellFormed ∧
    (Instr.chkOk 0x51).WellFormed ∧ (Instr.chkOk 0x51).regCond ⟨0, 0x51⟩ = true ∧
    (Instr.payLast 0xEF).regCond ⟨1, 0⟩ = true ∧ (Instr.payMore 0xBE).regCond ⟨2, 0⟩ = true := by decide

theorem witness_EncodeDecodeAgree :
    (decodeRx ⟨1, 0⟩ 0x05FF = .ok (.payLast 0xFF) ∧ rxOp 0x05FF = 0) ∧
    (decodeRx ⟨0, 0⟩ 0x0BFF = .ok .reset ∧ rxOp 0x0BFF ≠ 0) ∧
    (decodeTx 0x3FFFFFFFF = .ok (.wiresize 0xFF) ∧ txOp 0x3FFFFFFFF = 0) ∧
    (decodeTx 0x5FFFFFFFF = .ok (.cksum .toDevice 0xFF 0xFF) ∧ txOp 0x5FFFFFFFF = 1) ∧
    (decodeTx 0xBFFFE0105 = .ok (.encodeOk .unsupported 0xFF 0xFE 0x0105) ∧ txOp 0xBFFFE0105 = 2) := by decide

theorem witness_ReservedCodesRefused :
    rxOp 0x1800 = 3 ∧ rxOp 0x0700 = 0 ∧ rxStateField 0x0700 = 7 ∧ txOp 0xC00000000 = 3 ∧
    (txOp 0x400000000 = 1 ∧ txDir 0x400000000 = 0) ∧ (txOp 0x800000000 = 2 ∧ txDir 0x800000000 = 0) := by decide

theorem witness_DirectionByteMap :
    Direction.toDevice.toByte = Direction.toDevice.toByte ∧ (0x3D : Byte) ≠ 0x3C ∧ (0x3D : Byte) ≠ 0x3E ∧
    (0x3D : Byte) ≠ 0x21 := by decide

theorem witness_ResultEncoding :
    ∀ f, RxResult.frame ⟨0x24, .toDevice, bytes255⟩ = .frame f → f.WellFormed := by
  rintro f ⟨⟩; exact test_wf_frame.2

theorem witness_StepRunsDecodedOperation :
    decodeRx ⟨1, 0xBE⟩ (rxWord 0 rPay1.state.code 0xEF) = .ok (.payLast 0xEF) ∧
    decodeRx ⟨1, 0xBE⟩ (rxWord 3 rPay1.state.code 0xEF) = .error .reservedRxop ∧
    decodeTx 0x902020008 = .ok (.encodeOk .toDevice 2 2 8) ∧ decodeTx 0x802020008 = .error .noDirection := by decide

theorem witness_HardwareResetWins :
    ({ ofRx rChk with inputs := [.hwReset (some (.rx 0 0x51))] } : State).inputs =
      .hwReset (some (.rx 0 0x51)) :: [] := rfl

theorem witness_ResetRegisters :
    ({ ofRx rChk with inputs := [.hwReset none] } : State).inputs = .hwReset none :: [] := rfl

theorem witness_PauseChangesNothing : (ofRx rChk).inputs = [] := rfl

theorem witness_CallerWritesOneCell :
    ({ ofRx rP1 with inputs := [.callerWrite .txsrc 254 0xFF] } : State).Inv ∧ 254 < 255 ∧
    ({ ofRx rP1 with inputs := [.callerWrite .txbuf 65534 0xFF] } : State).Inv ∧ 65534 < 65535 ∧
    ({ ofRx rP1 with inputs := [.callerWrite .txsrc 255 0xFF] } : State).Inv ∧ 255 ≤ 255 ∧
    ({ ofRx rP1 with inputs := [.callerWrite .txbuf 65535 0xFF] } : State).Inv ∧ 65535 ≤ 65535 :=
  ⟨inv_withInputs inv_rP1 _, by decide, inv_withInputs inv_rP1 _, by decide, inv_withInputs inv_rP1 _, by decide,
    inv_withInputs inv_rP1 _, by decide⟩

theorem witness_QueuedBytesRunInOrder :
    feed [0x24, 0x4D] (ofRx rP1) = some ([quiet, quiet], { ofRx rDir with rxOut := quiet }) := by decide

theorem witness_FetchWordRuns :
    decodeTableWord 16 0x0524 = some (.payMore 0x24) ∧ decodeTableWord 16 0x0600 = some (.chkOk 0x00) ∧
    decodeTableWord 16 0x1FFF = none ∧ decodeTableWord 40 0xBFFFE0105 = some (.encodeOk .unsupported 0xFF 0xFE 261) := by
  decide

theorem witness_PreambleByteAdvances : (ofRx rP1).rx.state = .p1 ∧ (ofRx rP2).rx.state = .p2 := by decide

theorem witness_FramingViolationAbsorbed :
    ((ofRx rP1).rx.state = .p1 ∧ (0x25 : Byte) ≠ 0x24 ∧ (ofRx rP1).rx.Inv) ∧
    ((ofRx rP2).rx.state = .p2 ∧ (0x24 : Byte) ≠ 0x4D ∧ (ofRx rP2).rx.Inv) ∧
    ((ofRx rDir).rx.state = .dir ∧ (0x3D : Byte) ≠ 0x3C ∧ (0x3D : Byte) ≠ 0x3E ∧ (0x3D : Byte) ≠ 0x21 ∧
      (ofRx rDir).rx.Inv) :=
  ⟨⟨rfl, by decide, rfl⟩, ⟨rfl, by decide, rfl⟩, rfl, by decide, by decide, by decide, rfl⟩

theorem witness_DirectionByteStored : (ofRx rDir).rx.state = .dir := rfl

theorem witness_LengthByteLoaded : (ofRx rLen).rx.state = .len ∧ (ofRx rLen).rx.Inv := ⟨rfl, inv_rLen⟩

theorem witness_OpcodeByteStored :
    ((ofRx rOpcZ).rx.state = .opc ∧ (ofRx rOpcZ).rx.remaining = 0 ∧ (ofRx rOpcZ).rx.Inv) ∧
    ((ofRx rOpcNz).rx.state = .opc ∧ (ofRx rOpcNz).rx.remaining ≠ 0 ∧ (ofRx rOpcNz).rx.Inv ∧
      (0xFF : Byte) = (ofRx rOpcNz).rx.remaining) :=
  ⟨⟨rfl, rfl, inv_rOpcZ⟩, rfl, by decide, inv_rOpcNz, rfl⟩

theorem witness_PayloadByteStored :
    ((ofRx rPay2).rx.state = .pay ∧ 2 ≤ (ofRx rPay2).rx.remaining.toNat ∧ (ofRx rPay2).rx.payload.length < 255) ∧
    ((ofRx rPay255).rx.state = .pay ∧ 2 ≤ (ofRx rPay255).rx.remaining.toNat ∧
      (ofRx rPay255).rx.payload.length < 255) ∧
    ((ofRx rPay1).rx.state = .pay ∧ (ofRx rPay1).rx.remaining = 1 ∧ (ofRx rPay1).rx.payload.length < 255) := by decide

theorem witness_FrameEmitted :
    (ofRx rChk).rx.state = .chk ∧ (0x51 : Byte) = (ofRx rChk).rx.checksum ∧
    (ofRx rChk).rx.direction = some .toDevice ∧ (ofRx rChk).rx.Inv ∧ (Instr.chkOk 0x51).isRx = true ∧
    ∃ t f, exec (.chkOk 0x51) (ofRx rChk) = .next t ∧ t.rxOut = .push (.frame f) .diagNone :=
  ⟨rfl, rfl, rfl, inv_rChk, rfl, _, _, rfl, rfl⟩

theorem witness_ChecksumMismatchRaised :
    (ofRx rChk).rx.state = .chk ∧ (0x50 : Byte) ≠ (ofRx rChk).rx.checksum ∧ (Instr.chkBad 0x50).isRx = true ∧
    ∃ t, exec (.chkBad 0x50) (ofRx rChk) = .next t ∧ t.rxOut = .push (.error 0x50 0x51) .diagNone :=
  ⟨rfl, by decide, rfl, _, rfl, rfl⟩

theorem witness_ResetRestoresInitial :
    rxOp 0x0BFF = 1 ∧ (ofRx rP1).rx.Inv ∧ (ofRx rP1).rx.state = .p1 := ⟨by decide, rfl, rfl⟩

theorem witness_IdleQueryAnswers :
    rxOp 0x1234 = 2 ∧ (∃ t, exec .p1Match (ofRx rP1) = .next t) ∧ (∃ t, exec (.chkBad 0x50) (ofRx rChk) = .next t) ∧
    ∃ t, exec (.p1Skip 0x00) (ofRx rP1) = .next t := ⟨by decide, ⟨_, rfl⟩, ⟨_, rfl⟩, _, rfl⟩

theorem witness_WireSizeAnswers : txOp 0x0FF000000 = 0 := by decide

theorem witness_ChecksumGenerated :
    txOp 0x502020000 = 1 ∧ Direction.ofCode (txDir 0x502020000) = some .toDevice ∧
    (∃ t, exec (.cksum .toDevice 2 2) { State.reset with txsrc := srcBeEf } = .next t) ∧
    [(0xEF : Byte), 0xBE].Perm (Memory.readFrom srcBeEf 0 2) :=
  ⟨by decide, by decide, ⟨_, rfl⟩, by decide⟩

theorem witness_EncodeWritesFrame :
    txOp 0xBFFFE0105 = 2 ∧ Direction.ofCode (txDir 0xBFFFE0105) = some .unsupported ∧
    (txBufLen 0xBFFFE0105).toNat = 6 + (txLen 0xBFFFE0105).toNat ∧ Memory.WellFormed bufAa ∧
    (261 : BufLen).toNat = 6 + (0xFF : Byte).toNat := by decide

theorem witness_EncodeSizeMismatch :
    txOp 0xBFFFE0104 = 2 ∧ Direction.ofCode (txDir 0xBFFFE0104) = some .unsupported ∧
    (txBufLen 0xBFFFE0104).toNat ≠ 6 + (txLen 0xBFFFE0104).toNat ∧ (5 : BufLen).toNat ≠ 6 + (0xFF : Byte).toNat ∧
    (Instr.encodeErr .toDevice 2 2 7).isRx = false ∧
    ∃ t, exec (.encodeErr .toDevice 2 2 7) State.reset = .next t ∧ t.txOut = .encoded .error :=
  ⟨by decide, by decide, by decide, by decide, rfl, _, rfl, rfl⟩

theorem witness_EncodeStoresInOrder :
    (7 : BufLen).toNat = 6 + (0x01 : Byte).toNat ∧ (261 : BufLen).toNat = 6 + (0xFF : Byte).toNat ∧
    (6 : BufLen).toNat ≠ 6 + (0x01 : Byte).toNat ∧ (5 : BufLen).toNat ≠ 6 + (0xFF : Byte).toNat := by decide

theorem witness_EveryOperationCompletes :
    rPay2.Inv ∧ precondition (.payMore 0xBE) rPay2 = true ∧ rChk.Inv ∧ precondition (.chkOk 0x51) rChk = true ∧
    precondition (.encodeOk .toDevice 0xFF 0 261) rP1 = true :=
  ⟨inv_rPay2, by decide, inv_rChk, by decide, by decide⟩

theorem witness_OutsidePreconditionStops :
    (precondition .p1Match rP2 = false ∧ ∀ b, Instr.p1Match = .payMore b → rP2.state = .pay → rP2.remaining ≠ 0) ∧
    (precondition (.payMore 0) rPay1 = false ∧
      ∀ b, Instr.payMore 0 = .payMore b → rPay1.state = .pay → rPay1.remaining ≠ 0) ∧
    (ofRx ⟨.pay, some .toDevice, 0, 0, [], 0⟩).rx.remaining = 0 ∧
    255 ≤ bytes255.length :=
  ⟨⟨by decide, by simp⟩, ⟨by decide, by decide⟩, rfl, by simp⟩

theorem witness_OutsidePreconditionStops_full :
    (∃ r : RxRegs, r.state = .pay ∧ 2 ≤ r.remaining.toNat ∧ 255 ≤ r.payload.length) ∧
    (∃ r : RxRegs, r.state = .pay ∧ r.remaining = 1 ∧ 255 ≤ r.payload.length) ∧
    (∃ (r : RxRegs) (b : Byte), r.state = .chk ∧ b = r.checksum ∧ r.direction = none) :=
  ⟨⟨⟨.pay, none, 0, 2, bytes255, 0⟩, rfl, by decide, by simp⟩, ⟨⟨.pay, none, 0, 1, bytes255, 0⟩, rfl, rfl, by simp⟩,
    ⟨.chk, none, 0, 0, [], 0⟩, 0, rfl, rfl, rfl⟩

theorem witness_DecodedOperationMayRun :
    rPay2.Inv ∧ decodeRx rPay2.condRegs (rPay2.word 0 0xBE) = .ok (.payMore 0xBE) ∧
    decodeTx 0xBFFFE0105 = .ok (.encodeOk .unsupported 0xFF 0xFE 0x0105) :=
  ⟨inv_rPay2, by decide, by decide⟩

theorem witness_InvariantStatesNeverFault :
    ({ ofRx rPay1 with inputs := [.callerWrite .txsrc 254 0] } : State).Inv ∧
    ∀ sp a v rest, [Input.callerWrite .txsrc 254 0] = .callerWrite sp a v :: rest → a < sp.cells := by
  refine ⟨inv_withInputs inv_rPay1 _, ?_⟩
  rintro sp a v rest ⟨⟩
  decide

theorem witness_RxOperationsFrame :
    (Instr.payMore 0xBE).isRx = true ∧ ∃ t, exec (.payMore 0xBE) (ofRx rPay2) = .next t := ⟨rfl, _, rfl⟩

theorem witness_TxOperationsFrame :
    (Instr.encodeOk .toDevice 2 2 8).isRx = false ∧
    ∃ t, exec (.encodeOk .toDevice 2 2 8) { State.reset with txsrc := srcBeEf } = .next t := ⟨rfl, _, rfl⟩

theorem witness_RxRegistersFrame :
    (∃ t, exec .idleQuery (ofRx rP1) = .next t) ∧ (∃ t, exec .p1Match (ofRx rP1) = .next t) ∧
    (∃ t, exec .dirUns (ofRx rDir) = .next t) ∧ (∃ t, exec (.len 0xFF) (ofRx rLen) = .next t) ∧
    (∃ t, exec (.opcNz 0x24) (ofRx rOpcNz) = .next t) ∧ (∃ t, exec (.payLast 0xEF) (ofRx rPay1) = .next t) :=
  ⟨⟨_, rfl⟩, ⟨_, rfl⟩, ⟨_, rfl⟩, ⟨_, rfl⟩, ⟨_, rfl⟩, ⟨_, rfl⟩⟩

theorem witness_StepKeepsInvariant :
    ({ ofRx rPay1 with inputs := [.op (.rx 0 0xEF)] } : State).Inv ∧
    ∃ t, step { ofRx rPay1 with inputs := [.op (.rx 0 0xEF)] } = .next t :=
  ⟨inv_withInputs inv_rPay1 _, _, rfl⟩

/-- For PushIsTotal and DiagSideBand; the states P1, P2 and DIR in turn. -/
theorem witness_PushIsTotal :
    ({ ofRx rP1 with inputs := [.op (.rx 0 0x25)] } : State).Inv ∧
    ({ ofRx rP2 with inputs := [.op (.rx 0 0x24)] } : State).Inv ∧
    ({ ofRx rDir with inputs := [.op (.rx 0 0x3D)] } : State).Inv :=
  ⟨inv_withInputs inv_rP1 _, inv_withInputs inv_rP2 _, inv_withInputs inv_rDir _⟩

theorem witness_NextStateTable :
    ({ ofRx rChk with inputs := [.op (.rx 0 0x51)] } : State).Inv ∧
    (∃ t, step { State.reset with inputs := [.op (.tx 0x0FF000000)] } = .next t) ∧
    ∀ rxop b rest, [Input.op (.tx 0x0FF000000)] ≠ .op (.rx rxop b) :: rest :=
  ⟨inv_withInputs inv_rChk _, ⟨_, rfl⟩, by simp⟩

theorem witness_FiveQuietBytes : State.reset.rx = RxRegs.initial ∧ [(0x24 : Byte), 0x4D, 0x3C, 0, 1].length ≤ 5 :=
  ⟨rfl, by decide⟩

theorem witness_ReturnToIdleBound :
    (ofRx rPay2).Inv ∧ [(0xBE : Byte), 0xEF, 0x51].length = (ofRx rPay2).rx.bytesToIdle :=
  ⟨inv_withInputs inv_rPay2 [], by decide⟩

theorem witness_TruncatedFrameSwallows :
    (rOpcZ.Inv ∧ rOpcZ.state = .opc ∧ [(0 : Byte), 0].length = rOpcZ.bytesToIdle) ∧
    (rPay2.Inv ∧ rPay2.state = .pay ∧ [(0 : Byte), 0, 0].length = rPay2.bytesToIdle) ∧
    (rChk.Inv ∧ rChk.state = .chk ∧ [(0 : Byte)].length = rChk.bytesToIdle) :=
  ⟨⟨inv_rOpcZ, rfl, rfl⟩, ⟨inv_rPay2, rfl, rfl⟩, inv_rChk, rfl, rfl⟩

/-- For WholeFrameFromIdle, NoiseBeforeFrameSkipped, ResetThenFrameRecognised and SingleCorruptionDetected. -/
theorem witness_WholeFrameFromIdle :
    State.reset.rx = RxRegs.initial ∧ (Frame.mk 0x24 .toDevice bytes255).WellFormed ∧
    (Frame.mk 0x24 .toDevice []).WellFormed ∧ (∀ b ∈ [(0x4D : Byte), 0x00, 0xFF], b ≠ 0x24) ∧
    (0x03 : Byte) ≠ (Frame.mk 0x02 .toDevice [0xBE]).opcode ∧
    ∃ h : 0 < (Frame.mk 0x02 .toDevice [0xBE]).payload.length,
      (0xBF : Byte) ≠ (Frame.mk 0x02 .toDevice [0xBE]).payload[0] :=
  ⟨rfl, test_wf_frame.2, by decide, by decide, by decide, by decide, by decide⟩

theorem witness_EncodeThenDecodeRoundTrip :
    Memory.WellFormed State.reset.txbuf ∧ State.reset.rx = RxRegs.initial ∧
    (261 : BufLen).toNat = 6 + (0xFF : Byte).toNat := ⟨by decide, rfl, by decide⟩

theorem witness_PresentedEncodeWritesFrame :
    (ofRx rPay1).Inv ∧ (Frame.mk 0x24 .toDevice bytes255).WellFormed :=
  ⟨inv_withInputs inv_rPay1 [], test_wf_frame.2⟩

theorem witness_StrayMarkerLosesFrame :
    State.reset.rx = RxRegs.initial ∧ ∀ b ∈ (Frame.mk 0x01 .toDevice []).bytes.tail, b ≠ 0x24 := ⟨rfl, by decide⟩

theorem witness_CorruptedChecksumReported :
    State.reset.rx = RxRegs.initial ∧ (Frame.mk 0x02 .toDevice [0xBE, 0xEF]).WellFormed ∧
    (0x50 : Byte) ≠ (Frame.mk 0x02 .toDevice [0xBE, 0xEF]).checksum := ⟨rfl, by decide, by decide⟩

theorem witness_PermutedPayloadsBothAccepted :
    State.reset.rx = RxRegs.initial ∧ [(0x01 : Byte), 0x02, 0x04].length ≤ 255 ∧
    [(0x01 : Byte), 0x02, 0x04].Perm [0x04, 0x01, 0x02] := ⟨rfl, by decide, by decide⟩

theorem witness_ChecksumFoldLaws :
    (∃ h : 1 < (Frame.mk 2 .toDevice [0xBE, 0xEF]).payload.length,
      (0xEE : Byte) ≠ (Frame.mk 2 .toDevice [0xBE, 0xEF]).payload[1]) ∧
    0 < (Frame.mk 2 .toDevice [0xBE, 0xEF]).payload.length ∧ 0 ≠ 1 ∧
    (Frame.mk 0x64 .fromDevice []).payload = [] :=
  ⟨⟨by decide, by decide⟩, by decide, by decide, rfl⟩

theorem witness_AgentsCommute :
    (Instr.len 2).isRx = true ∧ (Instr.cksum .toDevice 1 0x66).isRx = false ∧
    (∃ t, exec (.len 2) (ofRx rLen) = .next t) ∧ ∃ u, exec (.cksum .toDevice 1 0x66) (ofRx rLen) = .next u :=
  ⟨rfl, rfl, ⟨_, rfl⟩, _, rfl⟩

theorem witness_TxOperationsPure :
    Memory.WellFormed bufAa ∧ Memory.WellFormed [] ∧ (Instr.encodeOk .toDevice 2 2 8).isRx = false ∧
    ∃ t, exec (.encodeOk .toDevice 2 2 8) { State.reset with txsrc := srcBeEf, txbuf := bufAa } = .next t :=
  ⟨by decide, by decide, rfl, _, rfl⟩

theorem witness_TxWordsComplete :
    txOp 0x0FF000000 ≠ 3 ∧ txOp 0x0FF000000 = 0 ∧
    (txOp 0x502020000 ≠ 3 ∧ txDir 0x502020000 ≠ 0 ∧ txOp 0x502020000 = 1) ∧
    (txOp 0x902020008 ≠ 3 ∧ txDir 0x902020008 ≠ 0 ∧ txOp 0x902020008 = 2) := by decide

end Sys2Proof.Tests
end

section
/-! The registers after the three resets (10_state.md R18). -/

namespace Sys2Proof.Machine

@[simp] theorem State.reset_rx : State.reset.rx = RxRegs.initial := rfl

/-- The RX registers after a hardware reset depend neither on the registers before it nor on the operation presented
with it. -/
theorem step_hwReset_rx {s : State} {c : Option Request} {rest : List Input} (h : s.inputs = .hwReset c :: rest) :
    ∃ t, step s = .next t ∧ t.rx = RxRegs.initial :=
  ⟨_, (step_hwReset h).trans (execReset_next.2 rfl), rfl⟩

/-- Settles O36: the values at reset are those of `RxRegs.initial`; RESET_ALL and the hardware reset write the same
registers, by `State.resetAll_rx` and `step_hwReset_rx`. -/
theorem resetRegisters : Obligations.ResetRegisters := by
  unfold Obligations.ResetRegisters
  rw [State.reset_rx]
  exact ⟨rfl, rfl, rfl, rfl, rfl, rfl, State.resetAll_rx, fun _ _ _ h => step_hwReset_rx h⟩

end Sys2Proof.Machine
end

section
/-! The stores of ENCODE and their order (20_memory.md R38). -/

namespace Sys2Proof.Machine

/-- The cells that ENCODE.OK writes, in the order of the writes: 0 to 5 + n, each once. -/
theorem encodeStores_fst {n : Byte} {f : Frame} (h : f.payload.length = n.toNat) :
    (encodeStores n f).map Prod.fst = List.range (6 + n.toNat) := by
  rw [encodeStores_eq h, storesFrom_fst, Frame.bytes_length, h, List.range_eq_range']

/-- The bytes that ENCODE.OK writes, in the order of the writes: the wire frame. -/
theorem encodeStores_snd {n : Byte} {f : Frame} (h : f.payload.length = n.toNat) :
    (encodeStores n f).map Prod.snd = f.bytes := by
  rw [encodeStores_eq h, storesFrom_snd]

/-- With the right size a streaming serializer emits what ENCODE.OK writes. -/
theorem emissions_of_size {n : Byte} {f : Frame} {bufLen : BufLen} (h : bufLen.toNat = 6 + n.toNat) :
    emissions n f bufLen = (encodeStores n f).map Prod.snd :=
  if_pos h

theorem emissions_of_size_ne {n : Byte} {f : Frame} {bufLen : BufLen} (h : bufLen.toNat ≠ 6 + n.toNat) :
    emissions n f bufLen = [] :=
  if_neg h

/-- Settles O28: the store list is `encodeStores` of the frame in TXSRC, a run of consecutive cells from 0 by
`encodeStores_eq`; a refused size runs ENCODE.ERR, which writes only the TX result. -/
theorem encodeStoresInOrder : Obligations.EncodeStoresInOrder := by
  unfold Obligations.EncodeStoresInOrder
  constructor
  · intro s d n op bufLen hsize
    have hlen : (txFrame d n op s).payload.length = n.toNat := txPayload_length n s
    exact ⟨txFrame d n op s, encodeStores n (txFrame d n op s), rfl, execEncodeOk_next.2 ⟨hsize, rfl⟩,
      encodeStores_fst hlen, encodeStores_snd hlen, (emissions_of_size hsize).trans (encodeStores_snd hlen)⟩
  · intro s d n op bufLen hsize
    exact ⟨⟨_, (execEncodeErr_next d op).2 ⟨hsize, rfl⟩, rfl⟩, fun _ => emissions_of_size_ne hsize⟩

end Sys2Proof.Machine
end

section
/-! The encodings of results (30_encoding.md R59). -/

namespace Sys2Proof.Machine

/-- A list of byte fields is read back in order. -/
@[simp] theorem fieldBytes_map_byte (p : List Byte) : fieldBytes (p.map .byte) = some p := by
  induction p with
  | nil => rfl
  | cons b p ih => simp [fieldBytes, ih]

/-- The fields of a Frame after its kind read back as the Frame: its LEN byte is its payload length (30_encoding.md
R50). -/
theorem decodeFrameFields_frame {f : Frame} (h : f.WellFormed) :
    decodeFrameFields f.opcode f.direction.code f.lenByte (f.payload.map .byte) = some (.frame f) := by
  simp [decodeFrameFields, Direction.ofCode_code, Frame.lenByte_toNat h]

/-- Decoding inverts encoding on the results that a `PUSH` can hand out. -/
theorem RxResult.decode_encode {r : RxResult} (h : ∀ f, r = .frame f → f.WellFormed) :
    RxResult.decode r.encode = some r := by
  cases r with
  | noFrame => rfl
  | frame f => exact decodeFrameFields_frame (h f rfl)
  | error expected calculated => rfl

/-- No list of fields is a result of kind 3: a pattern of the decoder that takes the list asks for kind 0, 2 or 1. -/
theorem RxResult.decode_kind_three (fields : List ResultField) : RxResult.decode (.code 3 :: fields) = none := by
  unfold RxResult.decode
  split
  next h => cases h; rfl
  next h => cases h; rfl
  next h => cases h; rfl
  next => rfl

/-- Settles O7: the fields and the codes are those of the definitions; the round trip is `RxResult.decode_encode`. -/
theorem resultEncoding : Obligations.ResultEncoding := by
  unfold Obligations.ResultEncoding
  exact ⟨rfl, fun _ => rfl, fun _ _ => rfl, rfl, rfl, rfl, rfl, rfl, rfl, fun _ => RxResult.decode_encode⟩

end Sys2Proof.Machine
end

section
/-! The reserved codes (30_encoding.md R58). -/

namespace Sys2Proof

theorem decodeRx_of_rxOp_three {w : RxWord} (regs : CondRegs) (h : rxOp w = 3) :
    decodeRx regs w = .error .reservedRxop := by
  rw [← rxWord_fields w, h]
  exact decodeRx_reservedRxop regs _ _

theorem decodeRx_of_state_seven {w : RxWord} (regs : CondRegs) (hop : rxOp w = 0) (hst : rxStateField w = 7) :
    decodeRx regs w = .error .reservedState := by
  rw [← rxWord_fields w, hop, hst]
  exact decodeRx_reservedState regs _

theorem decodeTx_of_txOp_three {w : TxWord} (h : txOp w = 3) : decodeTx w = .error .reservedTxop := by
  simp [decodeTx, h]

/-- Only CKSUM and ENCODE read the direction field. -/
theorem decodeTx_of_txDir_zero {w : TxWord} (hop : txOp w = 1 ∨ txOp w = 2) (hd : txDir w = 0) :
    decodeTx w = .error .noDirection := by
  have hnone : Direction.ofCode (txDir w) = none := Direction.ofCode_eq_none.2 hd
  rcases hop with h | h <;> simp [decodeTx, h, hnone]

/-- Settles O5: one lemma for each reserved code. -/
theorem reservedCodesRefused : Obligations.ReservedCodesRefused := by
  unfold Obligations.ReservedCodesRefused
  exact ⟨fun regs _ => decodeRx_of_rxOp_three regs, fun regs _ => decodeRx_of_state_seven regs,
    fun _ => decodeTx_of_txOp_three, fun _ => decodeTx_of_txDir_zero, Machine.RxResult.decode_kind_three⟩

end Sys2Proof
end

section
/-! The direction byte (30_encoding.md R48). -/

namespace Sys2Proof

/-- `to_byte` is injective, because `from_byte` undoes it. -/
theorem Direction.toByte_injective : Function.Injective Direction.toByte := fun d e h => by
  have hsome : some d = some e := by rw [← Direction.ofByte_toByte d, h, Direction.ofByte_toByte]
  exact Option.some.inj hsome

/-- Settles O6: the values are those of the definitions; `from_byte` undoes `to_byte` and has no value off its
image. -/
theorem directionByteMap : Obligations.DirectionByteMap := by
  unfold Obligations.DirectionByteMap
  exact ⟨rfl, rfl, rfl, rfl, rfl, rfl, fun _ _ h => Direction.toByte_injective h, Direction.ofByte_toByte,
    fun _ hto hfrom huns => Direction.ofByte_eq_none.2 ⟨hto, hfrom, huns⟩⟩

end Sys2Proof
end

section
/-! The class of a `PUSH` (40_decoder.md R67), and its word written as a number (30_encoding.md R56). -/

namespace Sys2Proof

/-- The word of a `PUSH`, as a number with the state above the byte. -/
theorem decodeRx_ofNat (regs : CondRegs) (k : Nat) (st : BitVec 3) (b : Byte) (hk : k = 256 * st.toNat) :
    decodeRx regs (BitVec.ofNat 13 (k + b.toNat)) = decodeRx regs (rxWord 0 st b) := by
  rw [hk, pushWord_ofNat]

theorem decodeRx_of_rxOp_one {w : RxWord} (regs : CondRegs) (h : rxOp w = 1) : decodeRx regs w = .ok .reset := by
  rw [← rxWord_fields w, h]
  exact decodeRx_reset regs _ _

theorem decodeRx_of_rxOp_two {w : RxWord} (regs : CondRegs) (h : rxOp w = 2) :
    decodeRx regs w = .ok .idleQuery := by
  rw [← rxWord_fields w, h]
  exact decodeRx_idleQuery regs _ _

theorem Direction.ofByte_ne_none {b : Byte} : Direction.ofByte b ≠ none ↔ b = 0x3C ∨ b = 0x3E ∨ b = 0x21 := by
  rw [ne_eq, Direction.ofByte_eq_none]; tauto

/-- Settles O4: the word decodes by the state's rows of the table, `Machine.push_decode`. -/
theorem pushDispatch : Obligations.PushDispatch := by
  unfold Obligations.PushDispatch
  exact Machine.push_decode

end Sys2Proof
end

section
/-! What the RX operations hand to the caller, and the one error among it (40_decoder.md R84, 60_exceptions.md
R117). -/

namespace Sys2Proof.Machine

/-- The result of an RX operation that completes: CHK.OK answers a Frame, CHK.BAD an error, and every other one
`NoFrame`, nothing, or the answer of IDLE?. -/
theorem exec_rx_rxOut {i : Instr} {s t : State} (hi : i.isRx = true) (he : exec i s = .next t) :
    (∃ b f, i = .chkOk b ∧ t.rxOut = .push (.frame f) .diagNone) ∨
    (∃ b, i = .chkBad b ∧ t.rxOut = .push (.error b s.rx.checksum) .diagNone) ∨
    (∃ d, t.rxOut = .push .noFrame d) ∨ t.rxOut = .none ∨ ∃ a, t.rxOut = .idle a := by
  cases i with
  | chkOk b => obtain ⟨-, d, -, rfl⟩ := execChkOk_next.1 he; exact .inl ⟨b, _, rfl, rfl⟩
  | chkBad b => obtain ⟨-, rfl⟩ := execChkBad_next.1 he; exact .inr (.inl ⟨b, rfl, rfl⟩)
  | reset => obtain rfl := execReset_next.1 he; exact .inr (.inr (.inr (.inl rfl)))
  | idleQuery => obtain rfl := execIdleQuery_next.1 he; exact .inr (.inr (.inr (.inr ⟨_, rfl⟩)))
  | p1Match => obtain ⟨-, rfl⟩ := execP1Match_next.1 he; exact .inr (.inr (.inl ⟨_, rfl⟩))
  | p1Skip b => obtain ⟨-, rfl⟩ := execP1Skip_next.1 he; exact .inr (.inr (.inl ⟨_, rfl⟩))
  | p2Match => obtain ⟨-, rfl⟩ := execP2Match_next.1 he; exact .inr (.inr (.inl ⟨_, rfl⟩))
  | p2Miss b => obtain ⟨-, rfl⟩ := execP2Miss_next.1 he; exact .inr (.inr (.inl ⟨_, rfl⟩))
  | dirTo | dirFrom | dirUns =>
    obtain ⟨-, rfl⟩ := storeDirection_next.1 he; exact .inr (.inr (.inl ⟨_, rfl⟩))
  | dirBad b => obtain ⟨-, rfl⟩ := execDirBad_next.1 he; exact .inr (.inr (.inl ⟨_, rfl⟩))
  | len b => obtain ⟨-, rfl⟩ := execLen_next.1 he; exact .inr (.inr (.inl ⟨_, rfl⟩))
  | opcZ b => obtain ⟨-, rfl⟩ := execOpcZ_next.1 he; exact .inr (.inr (.inl ⟨_, rfl⟩))
  | opcNz b => obtain ⟨-, rfl⟩ := execOpcNz_next.1 he; exact .inr (.inr (.inl ⟨_, rfl⟩))
  | payMore b => obtain ⟨-, -, -, rfl⟩ := execPayMore_next.1 he; exact .inr (.inr (.inl ⟨_, rfl⟩))
  | payLast b => obtain ⟨-, -, rfl⟩ := execPayLast_next.1 he; exact .inr (.inr (.inl ⟨_, rfl⟩))
  | wiresize | cksum | encodeOk | encodeErr => exact Bool.noConfusion hi

/-- An RX operation that answers an error is CHK.BAD, with the byte received and the accumulator as its values. -/
theorem exec_rx_error {i : Instr} {s t : State} {e c : Byte} {d : Diag} (hi : i.isRx = true)
    (he : exec i s = .next t) (ho : t.rxOut = .push (.error e c) d) : i = .chkBad e ∧ c = s.rx.checksum := by
  obtain ⟨_, _, -, h⟩ | ⟨b, rfl, h⟩ | ⟨_, h⟩ | h | ⟨_, h⟩ := exec_rx_rxOut hi he <;> rw [ho] at h <;> cases h
  exact ⟨rfl, rfl⟩

/-- Settles O21: the decoding is the CHK rows of the table, the effect is `State.raise`, and `exec_rx_error` says that
no other RX operation answers an error. -/
theorem checksumMismatchRaised : Obligations.ChecksumMismatchRaised := by
  unfold Obligations.ChecksumMismatchRaised
  refine ⟨fun regs b h => ?_, fun s b hst h => ⟨_, execChkBad_next.2 ⟨⟨hst, h⟩, rfl⟩, rfl, rfl⟩,
    fun _ _ _ _ _ _ => exec_rx_error⟩
  rw [decodeRx_ofNat regs 0x0600 6 b rfl, decodeRx_chk, if_neg h]

end Sys2Proof.Machine
end

section
/-! The step of a `PUSH`: it is total, and its result, its side band and its next state are those of the tables
(40_decoder.md R66, R68, R69). -/

namespace Sys2Proof.Machine

/-- The state after a `PUSH` (40_decoder.md R68). -/
def RxRegs.nextState (r : RxRegs) (b : Byte) : RxState :=
  match r.state with
  | .p1 => if b = 0x24 then .p2 else .p1
  | .p2 => if b = 0x4D then .dir else .p1
  | .dir => if b = 0x3C ∨ b = 0x3E ∨ b = 0x21 then .len else .p1
  | .len => .opc
  | .opc => if r.remaining = 0 then .chk else .pay
  | .pay => if r.remaining = 1 then .chk else .pay
  | .chk => .p1

/-- The side band of a `PUSH` (40_decoder.md R69). -/
def RxRegs.event (r : RxRegs) (b : Byte) : Diag :=
  if r.state = .p1 ∧ b ≠ PRE1 then .badPreamble1
  else if r.state = .p2 ∧ b ≠ PRE2 then .badPreamble2
  else if r.state = .dir ∧ Direction.ofByte b = none then .badDirection
  else .diagNone

/-- The result of a `PUSH` without its side band (40_decoder.md R68). -/
def RxRegs.result (r : RxRegs) (b : Byte) : RxResult :=
  match r.state with
  | .p1 | .p2 | .dir | .len | .opc | .pay => .noFrame
  | .chk =>
    if b = r.checksum then .frame ⟨r.opcode, r.direction.getD .toDevice, r.payload⟩ else .error b r.checksum

/-- The answer of `RxRegs.answer` is the result with its side band. -/
theorem RxRegs.answer_eq_push (r : RxRegs) (b : Byte) : r.answer b = .push (r.result b) (r.event b) := by
  unfold RxRegs.answer RxRegs.result RxRegs.event
  cases r.state with
  | p1 | p2 | dir | chk => dsimp only; split <;> simp [*]
  | len | opc | pay => simp

theorem RxRegs.pushed_state (r : RxRegs) (b : Byte) : (r.pushed b).state = r.nextState b := by
  unfold RxRegs.pushed RxRegs.nextState
  cases r.state with
  | p1 | p2 => exact apply_ite RxRegs.state _ _ _
  | dir =>
    dsimp only
    split
    next h => rw [if_pos (Direction.ofByte_ne_none.1 (by simp [h]))]
    next h => rw [if_neg (fun hb => Direction.ofByte_ne_none.2 hb h)]; rfl
  | len | opc | pay | chk => rfl

section Classes
variable {r : RxRegs} {b : Byte}

theorem RxRegs.result_of_ne_chk (h : r.state ≠ .chk) : r.result b = .noFrame := by
  unfold RxRegs.result
  cases hst : r.state with
  | chk => exact absurd hst h
  | p1 | p2 | dir | len | opc | pay => rfl

theorem RxRegs.result_of_checksum (h : r.state = .chk) (hb : b = r.checksum) : ∃ f, r.result b = .frame f := by
  rw [RxRegs.result, h]
  exact ⟨_, if_pos hb⟩

theorem RxRegs.result_of_ne_checksum (h : r.state = .chk) (hb : b ≠ r.checksum) :
    r.result b = .error b r.checksum := by
  rw [RxRegs.result, h]
  exact if_neg hb

theorem RxRegs.event_eq_badPreamble1 : r.event b = .badPreamble1 ↔ r.state = .p1 ∧ b ≠ 0x24 := by
  change _ ↔ r.state = .p1 ∧ b ≠ PRE1
  unfold RxRegs.event
  split_ifs <;> simp_all

theorem RxRegs.event_eq_badPreamble2 : r.event b = .badPreamble2 ↔ r.state = .p2 ∧ b ≠ 0x4D := by
  change _ ↔ r.state = .p2 ∧ b ≠ PRE2
  unfold RxRegs.event
  split_ifs <;> simp_all

theorem RxRegs.event_eq_badDirection :
    r.event b = .badDirection ↔ r.state = .dir ∧ b ≠ 0x3C ∧ b ≠ 0x3E ∧ b ≠ 0x21 := by
  rw [← Direction.ofByte_eq_none]
  unfold RxRegs.event
  split_ifs <;> simp_all

/-- An event on the side band means that a byte did not fit: no Frame, and every register is reset. -/
theorem RxRegs.absorbed_of_event (h : r.event b ≠ .diagNone) :
    r.result b = .noFrame ∧ r.pushed b = RxRegs.initial := by
  cases he : r.event b with
  | diagNone => exact absurd he h
  | badPreamble1 =>
    obtain ⟨hst, hb⟩ := RxRegs.event_eq_badPreamble1.1 he
    exact ⟨RxRegs.result_of_ne_chk (by simp [hst]), by rw [RxRegs.pushed, hst]; exact if_neg hb⟩
  | badPreamble2 =>
    obtain ⟨hst, hb⟩ := RxRegs.event_eq_badPreamble2.1 he
    exact ⟨RxRegs.result_of_ne_chk (by simp [hst]), by rw [RxRegs.pushed, hst]; exact if_neg hb⟩
  | badDirection =>
    obtain ⟨hst, hb⟩ := RxRegs.event_eq_badDirection.1 he
    refine ⟨RxRegs.result_of_ne_chk (by simp [hst]), ?_⟩
    simp only [RxRegs.pushed, hst, Direction.ofByte_eq_none.2 hb]

end Classes

section Step
variable {s t : State} {rest : List Input}

/-- A `PUSH` answers a result with its side band. -/
theorem step_push_answers (hi : s.rx.Inv) {b : Byte} (h : s.inputs = .op (.rx 0 b) :: rest) :
    step s = .next { s with
      inputs := rest, rx := s.rx.pushed b, rxOut := .push (s.rx.result b) (s.rx.event b) } := by
  rw [step_push_of_inputs hi h, RxRegs.answer_eq_push]

/-- A `PUSH` keeps the invariant of the machine: the caller's memories are not touched. -/
theorem State.Inv.pushed (hi : s.Inv) (b : Byte) (l : List Input) :
    ({ s with inputs := l, rx := s.rx.pushed b, rxOut := s.rx.answer b } : State).Inv :=
  ⟨RxRegs.pushed_inv hi.rx b, hi.txsrc, hi.txbuf, fun _ _ => RxRegs.answer_frame_wellFormed hi.rx⟩

/-- All that a step with a presented operation can do when it answers a next state. -/
theorem step_op_next {r : Request} (h : s.inputs = .op r :: rest) :
    step s = .next t ↔ ∃ i, r.decode s.rx = .ok i ∧ exec i (s.withInputs rest) = .next t := by
  rw [step_op h]
  cases r.decode s.rx <;> simp

/-- A TX word decodes to an operation of the TX agent. -/
theorem decodeTx_isRx {w : TxWord} {i : Instr} (h : decodeTx w = .ok i) : i.isRx = false := by
  obtain ⟨-, hd⟩ | ⟨-, hd⟩ | ⟨-, -, hd⟩ | ⟨-, d, -, hd⟩ | ⟨-, d, -, hd⟩ := decodeTx_cases w <;>
    rw [hd] at h <;> cases h
  · rfl
  · rfl
  · unfold encodeRow; split <;> rfl

/-- A TX operation writes no register of the decoder. -/
theorem exec_tx_rx {i : Instr} (hi : i.isRx = false) (he : exec i s = .next t) : t.rx = s.rx := by
  cases i <;> try exact Bool.noConfusion hi
  case wiresize n => obtain rfl := execWiresize_next.1 he; rfl
  case cksum d n op => obtain rfl := (execCksum_next d).1 he; rfl
  case encodeOk d n op l => obtain ⟨-, rfl⟩ := execEncodeOk_next.1 he; rfl
  case encodeErr d n op l => obtain ⟨-, rfl⟩ := (execEncodeErr_next d op).1 he; rfl

theorem State.callerWrite_rx {sp : CallerSpace} {a : Nat} {v : Byte} (h : s.callerWrite sp a v = .next t) :
    t.rx = s.rx := by
  unfold State.callerWrite at h
  split at h
  · cases sp <;> cases h <;> rfl
  · cases h

/-- A step whose input is neither an RX operation nor a hardware reset writes no register of the decoder. -/
theorem step_rx_of_other_input (h : step s = .next t) (hrx : ∀ rxop b rest, s.inputs ≠ .op (.rx rxop b) :: rest)
    (hreset : ∀ c rest, s.inputs ≠ .hwReset c :: rest) : t.rx = s.rx := by
  cases hin : s.inputs with
  | nil => rw [step_pause hin] at h; cases h; rfl
  | cons input rest =>
    cases input with
    | op r =>
      cases r with
      | rx rxop b => exact absurd hin (hrx rxop b rest)
      | tx w =>
        obtain ⟨i, hd, he⟩ := (step_op_next hin).1 h
        exact (exec_tx_rx (decodeTx_isRx hd) he).trans (s.withInputs_rx rest)
    | hwReset c => exact absurd hin (hreset c rest)
    | callerWrite sp a v =>
      exact (State.callerWrite_rx (step_callerWrite hin ▸ h)).trans (s.withInputs_rx rest)

end Step

/-- Settles O39: the step is the pure function of the registers and the byte, which keeps the invariant. -/
theorem pushIsTotal : Obligations.PushIsTotal := by
  unfold Obligations.PushIsTotal
  intro s b rest hi h
  exact ⟨_, _, _, step_push_of_inputs hi.rx h, rfl, RxRegs.answer_eq_push _ b, hi.pushed b rest⟩

/-- Settles O40: the state after a `PUSH` is `RxRegs.nextState` and its result `RxRegs.result`; RESET and IDLE? are
their meanings, and `step_rx_of_other_input` is the frame of every other input. -/
theorem nextStateTable : Obligations.NextStateTable := by
  unfold Obligations.NextStateTable
  refine ⟨fun s b rest hi h => ?_, fun s b rest h => ?_, fun s b rest h => ?_, fun _ _ => step_rx_of_other_input⟩
  · exact ⟨_, _, _, step_push_answers hi.rx h, rfl, RxRegs.pushed_state _ b, RxRegs.result_of_ne_chk,
      RxRegs.result_of_checksum, RxRegs.result_of_ne_checksum⟩
  · exact ⟨_, (step_op_next h).2 ⟨.reset, decodeRx_reset _ _ b, execReset_next.2 rfl⟩, rfl, rfl⟩
  · exact ⟨_, _, (step_op_next h).2 ⟨.idleQuery, decodeRx_idleQuery _ _ b, execIdleQuery_next.2 rfl⟩, rfl, rfl⟩

/-- Settles O41: the side band is `RxRegs.event`, whose three events have one class each. -/
theorem diagSideBand : Obligations.DiagSideBand := by
  unfold Obligations.DiagSideBand
  intro s b rest hi h
  refine ⟨_, _, _, step_push_answers hi.rx h, rfl, RxRegs.event_eq_badPreamble1, RxRegs.event_eq_badPreamble2,
    RxRegs.event_eq_badDirection, fun he => ?_⟩
  obtain ⟨hres, hreg⟩ := RxRegs.absorbed_of_event he
  exact ⟨hres, decide_eq_true (congrArg RxRegs.state hreg)⟩

end Sys2Proof.Machine
end

section
/-! The classes of `PUSH` one by one, each with its words and its effect (40_decoder.md R70 to R82). -/

namespace Sys2Proof.Machine

section Invariant
variable {r : RxRegs}

/-- Before LEN nothing is recorded, so a reset changes the state alone. -/
theorem RxRegs.Inv.initial_eq (hi : r.Inv) (h : r.state = .p1 ∨ r.state = .p2 ∨ r.state = .dir) :
    RxRegs.initial = { r with state := .p1 } := by
  have hr : r = { RxRegs.initial with state := r.state } := by
    unfold RxRegs.Inv at hi
    rcases h with h | h | h <;> rw [h] at hi <;> rw [h] <;> exact hi
  rw [hr]; rfl

theorem RxRegs.Inv.initial_eq_self (hi : r.Inv) (h : r.state = .p1) : RxRegs.initial = r := by
  rw [hi.initial_eq (.inl h), ← h]

theorem RxRegs.Inv.of_len (hi : r.Inv) (h : r.state = .len) : r.payload = [] ∧ r.checksum = 0 := by
  unfold RxRegs.Inv at hi
  rw [h] at hi
  obtain ⟨-, -, -, hpay, hck⟩ := hi
  exact ⟨hpay, hck⟩

theorem RxRegs.Inv.of_opc (hi : r.Inv) (h : r.state = .opc) : r.payload = [] ∧ r.checksum = r.remaining := by
  unfold RxRegs.Inv at hi
  rw [h] at hi
  obtain ⟨-, -, hpay, hck⟩ := hi
  exact ⟨hpay, hck⟩

end Invariant

/-- Settles O14: each preamble byte has one word, and its meaning is `State.advance`. -/
theorem preambleByteAdvances : Obligations.PreambleByteAdvances := by
  unfold Obligations.PreambleByteAdvances
  exact ⟨fun regs => decodeRx_p1 regs 0x24, fun regs => decodeRx_p2 regs 0x4D,
    fun _ h => ⟨_, execP1Match_next.2 ⟨h, rfl⟩, rfl, rfl⟩, fun _ h => ⟨_, execP2Match_next.2 ⟨h, rfl⟩, rfl, rfl⟩⟩

/-- Settles O15: the three words by the rows of their states, the effect by `State.absorb`, and in the states of
10_state.md R17 the reset changes the state alone, by `RxRegs.Inv.initial_eq`. -/
theorem framingViolationAbsorbed : Obligations.FramingViolationAbsorbed := by
  unfold Obligations.FramingViolationAbsorbed
  refine ⟨fun regs b h => ?_, fun regs b h => ?_, fun regs b hto hfrom huns => ?_, fun s b hst h => ?_,
    fun s b hst h => ?_, fun s b hst hto hfrom huns => ?_⟩
  · rw [decodeRx_ofNat regs 0x0000 0 b rfl, decodeRx_p1]; exact congrArg _ (if_neg h)
  · rw [decodeRx_ofNat regs 0x0100 1 b rfl, decodeRx_p2]; exact congrArg _ (if_neg h)
  · rw [decodeRx_ofNat regs 0x0200 2 b rfl, decodeRx_dir]
    exact congrArg _ ((if_neg hto).trans ((if_neg hfrom).trans (if_neg huns)))
  · exact ⟨_, execP1Skip_next.2 ⟨⟨hst, h⟩, rfl⟩, rfl, fun hi => hi.initial_eq_self hst, rfl⟩
  · exact ⟨_, execP2Miss_next.2 ⟨⟨hst, h⟩, rfl⟩, rfl, fun hi => hi.initial_eq (.inr (.inl hst)), rfl⟩
  · have hb : Direction.ofByte b = none := Direction.ofByte_eq_none.2 ⟨hto, hfrom, huns⟩
    exact ⟨_, execDirBad_next.2 ⟨⟨hst, hb⟩, rfl⟩, rfl, fun hi => hi.initial_eq (.inr (.inr hst)), rfl⟩

/-- Settles O16: the three words are rows of DIR, and the meaning of each is `storeDirection` of its Direction. -/
theorem directionByteStored : Obligations.DirectionByteStored := by
  unfold Obligations.DirectionByteStored
  refine ⟨fun regs => ⟨decodeRx_dir regs 0x3C, decodeRx_dir regs 0x3E, decodeRx_dir regs 0x21⟩, fun s h => ?_⟩
  have hstore (d : Direction) : storeDirection d s =
      .next (s.advance { s.rx with direction := some d, state := .len }) := storeDirection_next.2 ⟨h, rfl⟩
  exact ⟨⟨_, hstore _, rfl, rfl⟩, ⟨_, hstore _, rfl, rfl⟩, ⟨_, hstore _, rfl, rfl⟩⟩

/-- Settles O17: every byte in LEN has the one row, and the checksum it is folded into was 0 under the invariant. -/
theorem lengthByteLoaded : Obligations.LengthByteLoaded := by
  unfold Obligations.LengthByteLoaded
  refine ⟨fun regs b => ?_, fun s b h => ⟨_, execLen_next.2 ⟨h, rfl⟩, rfl, fun hi => ?_, rfl⟩⟩
  · rw [decodeRx_ofNat regs 0x0300 3 b rfl, decodeRx_len]
  · obtain ⟨hpay, hck⟩ := hi.of_len h
    exact ⟨by simp [hck], hpay⟩

/-- Settles O18: the counter picks the row of OPC; under the invariant the checksum before the byte is the counter, so
folding the byte gives the byte when the counter is 0 and 0 when the byte is the counter. -/
theorem opcodeByteStored : Obligations.OpcodeByteStored := by
  unfold Obligations.OpcodeByteStored
  refine ⟨fun regs b h => ?_, fun regs b h => ?_,
    fun s b hst h => ⟨_, execOpcZ_next.2 ⟨⟨hst, h⟩, rfl⟩, rfl, fun hi => ?_, rfl⟩,
    fun s b hst h => ⟨_, execOpcNz_next.2 ⟨⟨hst, h⟩, rfl⟩, rfl, rfl, fun hi hb => ?_, rfl⟩⟩
  · rw [decodeRx_ofNat regs 0x0400 4 b rfl, decodeRx_opc]; exact congrArg _ (if_pos h)
  · rw [decodeRx_ofNat regs 0x0400 4 b rfl, decodeRx_opc]; exact congrArg _ (if_neg h)
  · obtain ⟨hpay, hck⟩ := hi.of_opc hst
    exact ⟨by simp [hck, h], hpay, h⟩
  · obtain ⟨-, hck⟩ := hi.of_opc hst
    simp [hck, hb]

/-- Settles O19: the counter picks the row of PAY, and with room in RXBUF both classes take the byte; the counter goes
down by one without wrapping, from 1 to 0 at the last byte. -/
theorem payloadByteStored : Obligations.PayloadByteStored := by
  unfold Obligations.PayloadByteStored
  refine ⟨fun regs b h => ?_, fun regs b h => ?_, fun s b hst h2 hroom => ?_, fun s b hst h1 hroom => ?_⟩
  · rw [decodeRx_ofNat regs 0x0500 5 b rfl, decodeRx_pay]; exact congrArg _ (if_neg h)
  · rw [decodeRx_ofNat regs 0x0500 5 b rfl, decodeRx_pay]; exact congrArg _ (if_pos h)
  · have hne1 : s.rx.remaining ≠ 1 := by intro h; simp [h] at h2
    have hne0 : s.rx.remaining ≠ 0 := by intro h; simp [h] at h2
    have hsub : (s.rx.remaining - 1).toNat = s.rx.remaining.toNat - 1 :=
      BitVec.toNat_sub_of_le (show 1 ≤ s.rx.remaining.toNat by omega)
    exact ⟨_, execPayMore_next.2 ⟨⟨hst, hne1⟩, hne0, hroom, rfl⟩, rfl, hsub, by rw [← hst]; rfl⟩
  · have hlast : (1 - 1 : Byte) = 0 := rfl
    refine ⟨_, execPayLast_next.2 ⟨⟨hst, h1⟩, hroom, rfl⟩, rfl, ?_, ?_⟩
    · simp [RxRegs.takePayloadByte, RxRegs.declaredLength, h1]
    · rw [RxRegs.takePayloadByte, h1, hlast]; rfl

end Sys2Proof.Machine
end

section
/-! The operations RESET and IDLE? (40_decoder.md R85, R86). -/

namespace Sys2Proof.Machine

/-- Settles O22: RESET writes all six registers, so its effect is one for all registers before it; the initial
registers are those of P1 under the invariant. -/
theorem resetRestoresInitial : Obligations.ResetRestoresInitial := by
  unfold Obligations.ResetRestoresInitial
  exact ⟨fun regs _ => decodeRx_of_rxOp_one regs, fun s => ⟨_, execReset_next.2 rfl, rfl, rfl, execReset_next.2 rfl,
    fun hi hst => hi.initial_eq_self hst, fun _ => execReset_next.2 rfl⟩⟩

/-- Settles O23: the answer is the flag; P1.MATCH leaves P1, and CHK.BAD and P1.SKIP end in the initial registers. -/
theorem idleQueryAnswers : Obligations.IdleQueryAnswers := by
  unfold Obligations.IdleQueryAnswers
  refine ⟨fun regs _ => decodeRx_of_rxOp_two regs, fun s => execIdleQuery_next.2 rfl, fun s t h => ?_,
    fun s t b h => ?_⟩
  · obtain ⟨-, rfl⟩ := execP1Match_next.1 h
    exact ⟨_, execIdleQuery_next.2 rfl, rfl⟩
  · rcases h with h | h
    · obtain ⟨-, rfl⟩ := execChkBad_next.1 h
      exact ⟨_, execIdleQuery_next.2 rfl, rfl⟩
    · obtain ⟨-, rfl⟩ := execP1Skip_next.1 h
      exact ⟨_, execIdleQuery_next.2 rfl, rfl⟩

end Sys2Proof.Machine
end

section
/-! The TX words, by operation code (30_encoding.md R57). -/

namespace Sys2Proof

variable {w : TxWord} {d : Direction}

theorem decodeTx_of_txOp_zero (hop : txOp w = 0) : decodeTx w = .ok (.wiresize (txLen w)) := by
  simp [decodeTx, hop]

theorem decodeTx_of_txOp_one (hop : txOp w = 1) (hd : Direction.ofCode (txDir w) = some d) :
    decodeTx w = .ok (.cksum d (txLen w) (txOpcode w)) := by
  simp [decodeTx, hop, hd]

theorem decodeTx_of_txOp_two (hop : txOp w = 2) (hd : Direction.ofCode (txDir w) = some d) :
    decodeTx w = .ok (encodeRow d (txLen w) (txOpcode w) (txBufLen w)) := by
  simp [decodeTx, hop, hd]

/-- The two rows of ENCODE differ in the size of the buffer alone. -/
theorem encodeRow_of_size {n op : Byte} {bufLen : BufLen} (h : bufLen.toNat = 6 + n.toNat) :
    encodeRow d n op bufLen = .encodeOk d n op bufLen :=
  if_pos h

theorem encodeRow_of_size_ne {n op : Byte} {bufLen : BufLen} (h : bufLen.toNat ≠ 6 + n.toNat) :
    encodeRow d n op bufLen = .encodeErr d n op bufLen :=
  if_neg h

end Sys2Proof
end

section
/-! The bytes of a frame by their offset (30_encoding.md R45). -/

namespace Sys2Proof

variable {f : Frame}

/-- The payload bytes of a frame follow the five bytes of its header. -/
theorem Frame.bytes_getElem?_payload {i : Nat} (h : i < f.payload.length) : f.bytes[5 + i]? = f.payload[i]? := by
  rw [Frame.bytes, List.append_assoc, List.getElem?_append_right (Nat.le_add_right 5 i), List.getElem?_append_left]
  · simp
  · simpa using h

/-- The checksum is the last byte of a frame. -/
theorem Frame.bytes_getElem?_checksum (f : Frame) : f.bytes[5 + f.payload.length]? = some f.checksum := by
  rw [Nat.add_comm]
  exact List.getElem?_concat_length

theorem Frame.lenByte_of_length {n : Byte} (h : f.payload.length = n.toNat) : f.lenByte = n := by
  rw [Frame.lenByte, h, BitVec.ofNat_toNat, BitVec.setWidth_eq]

theorem Frame.checksum_of_length {n : Byte} (h : f.payload.length = n.toNat) :
    f.checksum = n ^^^ f.opcode ^^^ fold f.payload := by
  rw [Frame.checksum, Frame.lenByte_of_length h, wireChecksum]

end Sys2Proof
end

section
/-! The cells of TXBUF after ENCODE.OK (41_encoder.md R97). -/

namespace Sys2Proof.Machine

theorem txPayload_getElem? (s : State) {n : Byte} {i : Nat} (h : i < n.toNat) :
    (txPayload n s)[i]? = some (Memory.read s.txsrc i) := by
  rw [txPayload, Memory.readFrom_getElem? _ _ _ _ h, Nat.zero_add]

section Encoded
variable {m : Memory} {n b : Byte} {f : Frame} {a : Nat}

/-- A cell inside the buffer holds the byte of the frame at its offset, whatever it held before. -/
theorem Memory.read_encode (hm : Memory.WellFormed m) (hf : f.payload.length = n.toNat) (hb : f.bytes[a]? = some b) :
    Memory.read (Memory.writeAll m (encodeStores n f)) a = b := by
  obtain ⟨ha, rfl⟩ := List.getElem?_eq_some_iff.1 hb
  rw [encodeStores_eq hf, Memory.read_writeAll_storesFrom hm _ _ ha]

/-- A cell past the frame is not written. -/
theorem Memory.read_encode_above (hf : f.payload.length = n.toNat) (ha : 6 + n.toNat ≤ a) :
    Memory.read (Memory.writeAll m (encodeStores n f)) a = Memory.read m a := by
  refine Memory.read_writeAll_other (fun c hc => ?_) m
  rw [encodeStores_eq hf] at hc
  have hlt := (mem_storesFrom hc).2
  rw [Frame.bytes_length] at hlt
  omega

end Encoded

/-- Settles O26: the size picks the row; each cell inside the buffer holds the byte of the frame at its offset by
`Memory.read_encode`, and `Memory.read_encode_above` keeps the cells from `buf_len` on. -/
theorem encodeWritesFrame : Obligations.EncodeWritesFrame := by
  unfold Obligations.EncodeWritesFrame
  refine ⟨fun w d hop hd hsize => ?_, fun s d n op bufLen hm hsize => ?_⟩
  · rw [decodeTx_of_txOp_two hop hd, encodeRow_of_size hsize]
  · have hlen : (txFrame d n op s).payload.length = n.toNat := txPayload_length n s
    have hcell {a : Nat} {b : Byte} (hb : (txFrame d n op s).bytes[a]? = some b) :
        Memory.read (Memory.writeAll s.txbuf (encodeStores n (txFrame d n op s))) a = b :=
      Memory.read_encode hm hlen hb
    have hlenByte : (txFrame d n op s).bytes[3]? = some n := congrArg some (Frame.lenByte_of_length hlen)
    have hpayload (i : Nat) (hi : i < n.toNat) : (txFrame d n op s).bytes[5 + i]? = some (Memory.read s.txsrc i) :=
      (Frame.bytes_getElem?_payload (hlen ▸ hi)).trans (txPayload_getElem? s hi)
    have hchecksum := Frame.bytes_getElem?_checksum (txFrame d n op s)
    rw [hlen, Frame.checksum_of_length hlen] at hchecksum
    exact ⟨_, execEncodeOk_next.2 ⟨hsize, rfl⟩, hcell rfl, hcell rfl, hcell rfl, hcell hlenByte, hcell rfl,
      fun i hi => hcell (hpayload i hi), hcell hchecksum,
      fun a ha => Memory.read_encode_above hlen (hsize ▸ ha)⟩

end Sys2Proof.Machine
end

section
/-! The other TX operations (41_encoder.md R95, R96, R98). -/

namespace Sys2Proof.Machine

/-- Settles O24: the meaning of WIRESIZE reads the `len` field alone. -/
theorem wireSizeAnswers : Obligations.WireSizeAnswers := by
  unfold Obligations.WireSizeAnswers
  exact ⟨fun _ => decodeTx_of_txOp_zero, fun _ _ => execWiresize_next.2 rfl⟩

/-- Settles O25: the accumulator loop is the fold (`execCksum_next`), which does not see the order (`fold_perm`). -/
theorem checksumGenerated : Obligations.ChecksumGenerated := by
  unfold Obligations.ChecksumGenerated
  refine ⟨fun _ _ => decodeTx_of_txOp_one, fun s d n op => (execCksum_next d).2 rfl, fun s t d n op p h hp => ?_,
    fun s d op => (execCksum_next d).2 ?_⟩
  · obtain rfl := (execCksum_next d).1 h
    rw [fold_perm hp]; rfl
  · have hempty : wireChecksum 0 op (txPayload 0 s) = op := by
      simp [wireChecksum, txPayload, Memory.readFrom]
    rw [hempty]

/-- A TX operation that answers OutputBufferSizeMismatch is ENCODE.ERR: the other three answer something else. -/
theorem exec_tx_error {i : Instr} {s t : State} (hi : i.isRx = false) (he : exec i s = .next t)
    (herr : t.txOut = .encoded .error) : ∃ d n op bufLen, i = .encodeErr d n op bufLen := by
  cases i <;> try exact Bool.noConfusion hi
  case wiresize n => obtain rfl := execWiresize_next.1 he; cases herr
  case cksum d n op => obtain rfl := (execCksum_next d).1 he; cases herr
  case encodeOk d n op l => obtain ⟨-, rfl⟩ := execEncodeOk_next.1 he; cases herr
  case encodeErr d n op l => exact ⟨d, n, op, l, rfl⟩

/-- Settles O27: a wrong size picks the row ENCODE.ERR, whose meaning writes the TX result alone; `exec_tx_error` for
the other operations. -/
theorem encodeSizeMismatch : Obligations.EncodeSizeMismatch := by
  unfold Obligations.EncodeSizeMismatch
  refine ⟨fun w d hop hd hsize => ?_, fun s d n op bufLen hsize => ?_, fun _ _ _ => exec_tx_error⟩
  · rw [decodeTx_of_txOp_two hop hd, encodeRow_of_size_ne hsize]
  · exact ⟨_, (execEncodeErr_next d op).2 ⟨hsize, rfl⟩, rfl, fun _ => rfl⟩

end Sys2Proof.Machine
end

section
/-! The checksum of a frame after one of its bytes is replaced (41_encoder.md section 2). -/

namespace Sys2Proof

variable {f : Frame}

/-- A frame is the bytes before its checksum, and its checksum. -/
theorem Frame.bytes_eq_dropLast_append (f : Frame) : f.bytes = f.bytes.dropLast ++ [f.checksum] := by
  rw [Frame.bytes, List.dropLast_concat]

theorem Frame.checksum_ne_of_opcode_ne {op : Byte} (h : op ≠ f.opcode) :
    ({ f with opcode := op } : Frame).checksum ≠ f.checksum := by
  intro he
  simp only [Frame.checksum, wireChecksum, Frame.lenByte, BitVec.xor_assoc] at he
  have hfold := byte_xor_left_cancel he
  rw [BitVec.xor_comm, BitVec.xor_comm f.opcode] at hfold
  exact h (byte_xor_left_cancel hfold)

/-- Replacing a payload byte folds the old byte and the new one into the checksum. -/
theorem Frame.checksum_set {i : Nat} (h : i < f.payload.length) (v : Byte) :
    ({ f with payload := f.payload.set i v } : Frame).checksum = f.checksum ^^^ (f.payload[i] ^^^ v) := by
  simp only [Frame.checksum, wireChecksum, Frame.lenByte, List.length_set, fold_set h, BitVec.xor_assoc]

theorem Frame.checksum_ne_of_set {i : Nat} (h : i < f.payload.length) {v : Byte} (hv : v ≠ f.payload[i]) :
    ({ f with payload := f.payload.set i v } : Frame).checksum ≠ f.checksum := by
  rw [Frame.checksum_set h]
  intro he
  have hzero : f.payload[i] ^^^ v = f.payload[i] ^^^ f.payload[i] := by
    rw [BitVec.xor_self]
    exact byte_xor_left_cancel (he.trans BitVec.xor_zero.symm)
  exact hv (byte_xor_left_cancel hzero)

/-- Two equal changes at two places cancel. -/
theorem Frame.checksum_set_set {i j : Nat} (hi : i < f.payload.length) (hj : j < f.payload.length) (hij : i ≠ j)
    (x : Byte) :
    ({ f with payload := (f.payload.set i (f.payload[i] ^^^ x)).set j (f.payload[j] ^^^ x) } : Frame).checksum
      = f.checksum := by
  have hj' : j < (f.payload.set i (f.payload[i] ^^^ x)).length := by rwa [List.length_set]
  have hsecond := Frame.checksum_set (f := { f with payload := f.payload.set i (f.payload[i] ^^^ x) }) hj'
    (f.payload[j] ^^^ x)
  have hcancel (b : Byte) : b ^^^ (b ^^^ x) = x := by rw [← BitVec.xor_assoc, BitVec.xor_self, BitVec.zero_xor]
  simp only [List.getElem_set_of_ne hij, hcancel, Frame.checksum_set hi] at hsecond
  rw [hsecond, BitVec.xor_assoc, BitVec.xor_self, BitVec.xor_zero]

/-- The bytes from LEN to CHECKSUM fold to 0. -/
theorem Frame.fold_drop_three (f : Frame) : fold (f.bytes.drop 3) = 0 := by
  have hdrop : f.bytes.drop 3 = [f.lenByte, f.opcode] ++ f.payload ++ [f.checksum] := rfl
  rw [hdrop, fold_append, fold_append, Frame.checksum, wireChecksum]
  simp [BitVec.xor_assoc]

theorem Frame.checksum_of_payload_nil (h : f.payload = []) : f.checksum = f.opcode := by
  simp [Frame.checksum, wireChecksum, Frame.lenByte, h]

/-- The checksum does not see the order of the payload. -/
theorem Frame.checksum_perm (op : Byte) (d : Direction) {p q : List Byte} (h : p.Perm q) :
    (Frame.mk op d p).checksum = (Frame.mk op d q).checksum := by
  simp only [Frame.checksum, Frame.lenByte, wireChecksum, h.length_eq, fold_perm h]

/-- Settles O54: one lemma for each law. -/
theorem checksumFoldLaws : Obligations.ChecksumFoldLaws := by
  unfold Obligations.ChecksumFoldLaws
  exact ⟨Frame.fold_drop_three, fun _ _ h _ => Frame.checksum_ne_of_set h,
    fun _ _ _ hi hj x hij => Frame.checksum_set_set hi hj hij x, fun _ => Frame.checksum_of_payload_nil⟩

end Sys2Proof
end

section
/-! Frames in a stream of bytes, from the initial state (40_decoder.md section 10). -/

namespace Sys2Proof.Machine

/-- What the last byte of a frame answers: the Frame when it is the checksum, else the error with both bytes. -/
def frameAnswer (f : Frame) (c : Byte) : RxOutput :=
  if c = f.checksum then .push (.frame f) .diagNone else .push (.error c f.checksum) .diagNone

@[simp] theorem frameAnswer_checksum (f : Frame) : frameAnswer f f.checksum = .push (.frame f) .diagNone :=
  if_pos rfl

theorem frameAnswer_of_ne {f : Frame} {c : Byte} (h : c ≠ f.checksum) :
    frameAnswer f c = .push (.error c f.checksum) .diagNone :=
  if_neg h

/-- A frame with any last byte ends in the initial registers, and is quiet up to that byte. -/
theorem RxRegs.pushAll_frame_concat {f : Frame} (h : f.WellFormed) (c : Byte) :
    RxRegs.initial.pushAll (f.bytes.dropLast ++ [c]) = RxRegs.initial ∧
    RxRegs.initial.answers (f.bytes.dropLast ++ [c]) =
      List.replicate (5 + f.payload.length) quiet ++ [frameAnswer f c] := by
  obtain ⟨hregs, hans⟩ := RxRegs.pushAll_frame h
  rw [RxRegs.pushAll_append, RxRegs.answers_append, hregs, hans]
  exact ⟨rfl, rfl⟩

theorem RxRegs.pushAll_frame_bytes {f : Frame} (h : f.WellFormed) :
    RxRegs.initial.pushAll f.bytes = RxRegs.initial ∧
    RxRegs.initial.answers f.bytes =
      List.replicate (5 + f.payload.length) quiet ++ [.push (.frame f) .diagNone] := by
  have hlast := RxRegs.pushAll_frame_concat h f.checksum
  rwa [← Frame.bytes_eq_dropLast_append, frameAnswer_checksum] at hlast

/-- Bytes other than the first preamble byte leave the initial registers, each with its event. -/
theorem RxRegs.pushAll_noise {noise : List Byte} (h : ∀ b ∈ noise, b ≠ 0x24) :
    RxRegs.initial.pushAll noise = RxRegs.initial ∧
    RxRegs.initial.answers noise = List.replicate noise.length (.push .noFrame .badPreamble1) := by
  induction noise with
  | nil => exact ⟨rfl, rfl⟩
  | cons b noise ih =>
    obtain ⟨hb, hrest⟩ := List.forall_mem_cons.1 h
    have hregs : RxRegs.initial.pushed b = RxRegs.initial := if_neg hb
    have hans : RxRegs.initial.answer b = .push .noFrame .badPreamble1 := if_neg hb
    rw [RxRegs.pushAll, RxRegs.answers, hregs, hans, (ih hrest).1, (ih hrest).2]
    exact ⟨rfl, rfl⟩

section Feed
variable {s : State} {bs : List Byte}

/-- A run that starts and ends in the initial registers changes only the result handed out last. -/
theorem feed_of_answers {outs : List RxOutput} {o : RxOutput} (h : s.rx = RxRegs.initial)
    (hregs : RxRegs.initial.pushAll bs = RxRegs.initial) (hans : RxRegs.initial.answers bs = outs ++ [o]) :
    feed bs s = some (outs ++ [o], { s with rxOut := o }) := by
  have hrun := feed_eq (s := s) (h ▸ RxRegs.initial_inv) bs
  rw [h, hregs, hans, List.getLastD_concat, ← h] at hrun
  exact hrun

theorem feed_frame_bytes {f : Frame} (h : s.rx = RxRegs.initial) (hf : f.WellFormed) :
    feed f.bytes s =
      some (List.replicate (5 + f.payload.length) quiet ++ [.push (.frame f) .diagNone],
        { s with rxOut := .push (.frame f) .diagNone }) := by
  obtain ⟨hregs, hans⟩ := RxRegs.pushAll_frame_bytes hf
  exact feed_of_answers h hregs hans

/-- A frame whose last byte is not its checksum ends in ChecksumMismatch, in the initial registers. -/
theorem feed_frame_bad_checksum {f : Frame} {c : Byte} (h : s.rx = RxRegs.initial) (hf : f.WellFormed)
    (hc : c ≠ f.checksum) :
    feed (f.bytes.dropLast ++ [c]) s =
      some (List.replicate (5 + f.payload.length) quiet ++ [.push (.error c f.checksum) .diagNone],
        { s with rxOut := .push (.error c f.checksum) .diagNone }) := by
  obtain ⟨hregs, hans⟩ := RxRegs.pushAll_frame_concat hf c
  rw [frameAnswer_of_ne hc] at hans
  exact feed_of_answers h hregs hans

end Feed

/-- Settles O45: `RxRegs.pushAll_frame` for the bytes before the checksum, and the checksum emits the Frame. -/
theorem wholeFrameFromIdle : Obligations.WholeFrameFromIdle := by
  unfold Obligations.WholeFrameFromIdle
  exact fun _ _ => feed_frame_bytes

/-- Settles O50: the first frame ends in the initial registers, from which the second is recognised. -/
theorem corruptedChecksumReported : Obligations.CorruptedChecksumReported := by
  unfold Obligations.CorruptedChecksumReported
  intro s f g c h hf hg hc
  have hnext := feed_frame_bytes (s := { s with rxOut := .push (.error c f.checksum) .diagNone }) h hg
  rw [feed_append_of_some (feed_frame_bad_checksum h hf hc), hnext]
  rfl

/-- Settles O51: the frame fed is a frame with another checksum, `Frame.checksum_ne_of_opcode_ne` and
`Frame.checksum_ne_of_set`, whose last byte is the old one. -/
theorem singleCorruptionDetected : Obligations.SingleCorruptionDetected := by
  unfold Obligations.SingleCorruptionDetected
  intro s f h hf
  refine ⟨fun op hop => ?_, fun i hi v hv => ?_⟩
  · have hck := Frame.checksum_ne_of_opcode_ne hop
    exact ⟨_, _, _, feed_frame_bad_checksum h hf hck.symm, hck, h⟩
  · have hck := Frame.checksum_ne_of_set hi hv
    have hwf : ({ f with payload := f.payload.set i v } : Frame).WellFormed := by
      rwa [Frame.WellFormed, List.length_set]
    exact ⟨_, _, _, feed_frame_bad_checksum h hwf hck.symm, hck, h⟩

/-- Settles O48: the noise leaves the initial registers (`RxRegs.pushAll_noise`). -/
theorem noiseBeforeFrameSkipped : Obligations.NoiseBeforeFrameSkipped := by
  unfold Obligations.NoiseBeforeFrameSkipped
  intro s noise f h hnoise hf
  obtain ⟨hregs, hans⟩ := RxRegs.pushAll_noise hnoise
  obtain ⟨hregs', hans'⟩ := RxRegs.pushAll_frame_bytes hf
  rw [← List.append_assoc]
  refine feed_of_answers h ?_ ?_
  · rw [RxRegs.pushAll_append, hregs, hregs']
  · rw [RxRegs.answers_append, hregs, hans, hans', List.append_assoc]

/-- Settles O49: the stray byte leads to P2 and the frame's own first byte back to P1, where the rest is noise. -/
theorem strayMarkerLosesFrame : Obligations.StrayMarkerLosesFrame := by
  unfold Obligations.StrayMarkerLosesFrame
  intro s f h htail
  obtain ⟨hregs, hans⟩ := RxRegs.pushAll_noise htail
  have hans' : RxRegs.initial.answers (0x24 :: f.bytes) =
      quiet :: .push .noFrame .badPreamble2 :: RxRegs.initial.answers f.bytes.tail := rfl
  refine ⟨_, _, feed_eq (h ▸ RxRegs.initial_inv) _, ?_, ?_⟩
  · rw [h, hans', hans]
    simp only [List.forall_mem_cons, List.mem_replicate]
    exact ⟨rfl, rfl, by rintro o ⟨-, rfl⟩; rfl⟩
  · rw [h]; exact hregs

/-- Settles O52: RESET leaves the initial registers. -/
theorem resetThenFrameRecognised : Obligations.ResetThenFrameRecognised := by
  unfold Obligations.ResetThenFrameRecognised
  exact fun s f hf => ⟨_, _, execReset_next.2 rfl, feed_frame_bytes rfl hf, rfl⟩

/-- Settles O53: both frames are recognised, with as many quiet results. -/
theorem permutedPayloadsBothAccepted : Obligations.PermutedPayloadsBothAccepted := by
  unfold Obligations.PermutedPayloadsBothAccepted
  intro s op d p q h hp hperm
  have hlen : (Frame.mk op d q).payload.length = p.length := hperm.length_eq.symm
  have hp' := feed_frame_bytes (f := ⟨op, d, p⟩) h hp
  have hq' := feed_frame_bytes (f := ⟨op, d, q⟩) h (hlen.trans_le hp)
  rw [hlen] at hq'
  exact ⟨Frame.checksum_perm op d hperm, _, _, _, hp', hq'⟩

end Sys2Proof.Machine
end

section
/-! How long the decoder can stay away from P1 (40_decoder.md section 10, 60_exceptions.md section 5). -/

namespace Sys2Proof.Machine

/-- The fewest bytes from a state to a Frame or an error, less one: CHK alone answers one. -/
def RxState.quietBytes : RxState → Nat
  | .p1 => 5
  | .p2 => 4
  | .dir => 3
  | .len => 2
  | .opc | .pay => 1
  | .chk => 0

/-- One byte brings CHK nearer by at most one state. -/
theorem RxRegs.quietBytes_pushed (r : RxRegs) (b : Byte) :
    r.state.quietBytes ≤ (r.pushed b).state.quietBytes + 1 := by
  rw [RxRegs.pushed_state, RxRegs.nextState]
  cases r.state with
  | p1 | p2 | dir | opc | pay => dsimp only; split <;> decide
  | len | chk => dsimp only; decide

theorem RxRegs.answer_isNoFrame {r : RxRegs} (h : r.state ≠ .chk) (b : Byte) : (r.answer b).isNoFrame = true := by
  rw [RxRegs.answer_eq_push, RxRegs.result_of_ne_chk h]
  rfl

/-- No Frame and no error before CHK can have been reached. -/
theorem RxRegs.answers_isNoFrame {r : RxRegs} {bs : List Byte} (h : bs.length ≤ r.state.quietBytes) :
    ∀ o ∈ r.answers bs, o.isNoFrame = true := by
  induction bs generalizing r with
  | nil => simp [RxRegs.answers]
  | cons b bs ih =>
    rw [List.length_cons] at h
    have hne : r.state ≠ .chk := by intro hc; simp [hc, RxState.quietBytes] at h
    have hstep := r.quietBytes_pushed b
    exact List.forall_mem_cons.2 ⟨RxRegs.answer_isNoFrame hne b, ih (by omega)⟩

/-- Settles O42: CHK is five bytes from P1. -/
theorem fiveQuietBytes : Obligations.FiveQuietBytes := by
  unfold Obligations.FiveQuietBytes
  intro s bs h hlen
  refine ⟨_, _, feed_eq (h ▸ RxRegs.initial_inv) bs, RxRegs.answers_length _ bs, ?_⟩
  rw [h]
  exact RxRegs.answers_isNoFrame hlen

/-- Once LEN has been read every byte is counted. -/
def RxState.inBody : RxState → Bool
  | .opc | .pay | .chk => true
  | .p1 | .p2 | .dir | .len => false

section Bound
variable {r : RxRegs} {b : Byte}

theorem RxRegs.bytesToIdle_of_p1 (h : r.state = .p1) : r.bytesToIdle = 0 := by
  rw [RxRegs.bytesToIdle, h]

theorem RxRegs.bytesToIdle_of_chk (h : r.state = .chk) : r.bytesToIdle = 1 := by
  rw [RxRegs.bytesToIdle, h]

/-- In the body of a frame, before its checksum, a byte is quiet, stays in the body and is counted. -/
theorem RxRegs.pushed_in_body (hi : r.Inv) (hbody : r.state.inBody = true) (hchk : r.state ≠ .chk) (b : Byte) :
    r.answer b = quiet ∧ (r.pushed b).state.inBody = true ∧ (r.pushed b).bytesToIdle + 1 = r.bytesToIdle := by
  obtain ⟨st, dir, opc, rem, pl, ck⟩ := r
  cases st <;> try exact absurd rfl hchk
  case p1 | p2 | dir | len => cases hbody
  case opc =>
    refine ⟨rfl, ?_⟩
    by_cases h : rem = 0
    · subst h; exact ⟨rfl, rfl⟩
    · have hpush : (RxRegs.mk .opc dir opc rem pl ck).pushed b = ⟨.pay, dir, b, rem, pl, ck ^^^ b⟩ := by
        simp only [RxRegs.pushed]; rw [if_neg h]
      rw [hpush]; exact ⟨rfl, rfl⟩
  case pay =>
    refine ⟨rfl, ?_⟩
    by_cases h : rem = 1
    · subst h; exact ⟨rfl, rfl⟩
    · obtain ⟨-, hpos, -, -⟩ := hi
      have hsub : (rem - 1).toNat + 1 = rem.toNat := by
        rw [BitVec.toNat_sub_of_le hpos]; exact Nat.sub_add_cancel hpos
      have hpush : (RxRegs.mk .pay dir opc rem pl ck).pushed b = ⟨.pay, dir, opc, rem - 1, pl ++ [b], ck ^^^ b⟩ := by
        simp only [RxRegs.pushed]; rw [if_neg h]; rfl
      rw [hpush]
      exact ⟨rfl, congrArg (· + 1) hsub⟩

theorem RxRegs.pushed_of_chk (h : r.state = .chk) (b : Byte) : r.pushed b = RxRegs.initial := by
  rw [RxRegs.pushed, h]

/-- Away from P1 every byte lowers the bound. -/
theorem RxRegs.bytesToIdle_pushed_lt (hi : r.Inv) (h : r.state ≠ .p1) (b : Byte) :
    (r.pushed b).bytesToIdle < r.bytesToIdle := by
  cases hst : r.state with
  | p1 => exact absurd hst h
  | p2 =>
    simp only [RxRegs.pushed, hst]
    split <;> simp [RxRegs.bytesToIdle, RxRegs.initial, hst]
  | dir =>
    simp only [RxRegs.pushed, hst]
    split <;> simp [RxRegs.bytesToIdle, RxRegs.initial, hst]
  | len =>
    have := b.isLt
    simp only [RxRegs.pushed, RxRegs.bytesToIdle, hst]
    omega
  | opc | pay =>
    obtain ⟨-, -, hcount⟩ := RxRegs.pushed_in_body hi (by rw [hst]; rfl) (by simp [hst]) b
    omega
  | chk =>
    rw [RxRegs.pushed_of_chk hst, RxRegs.bytesToIdle_of_chk hst, RxRegs.bytesToIdle_of_p1 rfl]
    exact Nat.one_pos

/-- With as many bytes as the bound, P1 is reached after some of them. -/
theorem RxRegs.exists_take_p1 {bs : List Byte} (hi : r.Inv) (h : r.bytesToIdle ≤ bs.length) :
    ∃ k ≤ bs.length, (r.pushAll (bs.take k)).state = .p1 := by
  induction bs generalizing r with
  | nil =>
    refine ⟨0, Nat.le_refl 0, ?_⟩
    by_contra hne
    have hlt := RxRegs.bytesToIdle_pushed_lt hi hne 0
    exact absurd (Nat.lt_of_lt_of_le hlt h) (Nat.not_lt_zero _)
  | cons b bs ih =>
    by_cases hst : r.state = .p1
    · exact ⟨0, Nat.zero_le _, hst⟩
    · have hlt := RxRegs.bytesToIdle_pushed_lt hi hst b
      rw [List.length_cons] at h
      obtain ⟨k, hk, hidle⟩ := ih (RxRegs.pushed_inv hi b) (by omega)
      exact ⟨k + 1, Nat.succ_le_succ hk, hidle⟩

/-- The body of a frame, fed to its end: every byte but the last is quiet, the last answers a Frame or an error. -/
theorem RxRegs.answers_body {bs : List Byte} (hi : r.Inv) (hbody : r.state.inBody = true)
    (hlen : bs.length = r.bytesToIdle) :
    ∃ outs x, r.answers bs = outs ++ [.push x .diagNone] ∧ (∀ o ∈ outs, o = quiet) ∧ x ≠ .noFrame ∧
      r.pushAll bs = RxRegs.initial ∧ ∀ k < bs.length, (r.pushAll (bs.take k)).state.inBody = true := by
  induction bs generalizing r with
  | nil =>
    unfold RxRegs.bytesToIdle at hlen
    cases hst : r.state with
    | p1 | p2 | dir | len => rw [hst] at hbody; cases hbody
    | opc | pay | chk => simp [hst] at hlen
  | cons b bs ih =>
    by_cases hchk : r.state = .chk
    · obtain rfl : bs = [] := by simpa [RxRegs.bytesToIdle_of_chk hchk] using hlen
      have hans : r.answers [b] = [] ++ [.push (r.result b) .diagNone] := by
        simp [RxRegs.answers, RxRegs.answer_eq_push, RxRegs.event, hchk]
      refine ⟨[], r.result b, hans, by simp, ?_, RxRegs.pushed_of_chk hchk b, fun k hk => ?_⟩
      · by_cases hb : b = r.checksum
        · obtain ⟨f, hf⟩ := RxRegs.result_of_checksum hchk hb
          simp [hf]
        · simp [RxRegs.result_of_ne_checksum hchk hb]
      · obtain rfl : k = 0 := by simpa using hk
        exact hbody
    · obtain ⟨hquiet, hbody', hcount⟩ := RxRegs.pushed_in_body hi hbody hchk b
      rw [List.length_cons] at hlen
      obtain ⟨outs, x, hans, hall, hx, hend, hbefore⟩ := ih (RxRegs.pushed_inv hi b) hbody' (by omega)
      refine ⟨quiet :: outs, x, by rw [RxRegs.answers, hquiet, hans]; rfl, List.forall_mem_cons.2 ⟨rfl, hall⟩, hx,
        hend, fun k hk => ?_⟩
      cases k with
      | zero => exact hbody
      | succ k => exact hbefore k (Nat.lt_of_succ_lt_succ hk)

end Bound

/-- Settles O43: the bound is a measure that every byte away from P1 lowers (`RxRegs.bytesToIdle_pushed_lt`). -/
theorem returnToIdleBound : Obligations.ReturnToIdleBound := by
  unfold Obligations.ReturnToIdleBound
  intro s bs hi hlen
  obtain ⟨k, hk, hidle⟩ := RxRegs.exists_take_p1 hi.rx hlen.ge
  exact ⟨k, _, _, hk, feed_eq hi.rx _, decide_eq_true hidle⟩

/-- Settles O44: in the body of a frame the bound counts exactly (`RxRegs.pushed_in_body`). -/
theorem truncatedFrameSwallows : Obligations.TruncatedFrameSwallows := by
  unfold Obligations.TruncatedFrameSwallows
  intro s bs hi hst hlen
  have hbody : s.rx.state.inBody = true := by rcases hst with h | h | h <;> rw [h] <;> rfl
  obtain ⟨outs, x, hans, hall, hx, hend, hbefore⟩ := RxRegs.answers_body hi hbody hlen
  refine ⟨outs, x, _, hans ▸ feed_eq hi bs, hall, hx, hend, fun k hk => ⟨_, _, feed_eq hi _, ?_⟩⟩
  have hne : (s.rx.pushAll (bs.take k)).state ≠ .p1 := by
    intro h; have := hbefore k hk; rw [h] at this; cases this
  exact decide_eq_false hne

end Sys2Proof.Machine
end

section
/-! Decoding and encoding are inverse, but for the bits that a row ignores (30_encoding.md R56, R57). -/

namespace Sys2Proof

/-- The bits of an RX word that RESET and IDLE? are told by. -/
theorem rxWord_and_op_mask (w : RxWord) : w &&& 0x1800 = rxWord (rxOp w) 0 0 := by
  conv_lhs => rw [← rxWord_fields w]
  exact rxWord_and_op _ _ _

section TxMasks
variable (w : TxWord)

/-- A mask on a TX word, field by field. -/
theorem and_txWord (op d : BitVec 2) (l o : Byte) (n : BufLen) :
    w &&& txWord op d l o n =
      txWord (txOp w &&& op) (txDir w &&& d) (txLen w &&& l) (txOpcode w &&& o) (txBufLen w &&& n) := by
  conv_lhs => rw [← txWord_fields w]
  exact txWord_and ..

theorem code_and_three : ∀ c : BitVec 2, c &&& 3 = c := by decide

/-- The bits of a TX word that WIRESIZE reads. -/
theorem and_wiresize_mask : w &&& 0x0FF000000 = txWord 0 0 (txLen w) 0 0 := by
  have hmask : (0x0FF000000 : TxWord) = txWord 0 0 (BitVec.allOnes 8) 0 0 := by decide
  rw [hmask, and_txWord, BitVec.and_allOnes]
  simp

/-- The bits of a TX word that CKSUM reads. -/
theorem and_cksum_mask : w &&& 0xFFFFF0000 = txWord (txOp w) (txDir w) (txLen w) (txOpcode w) 0 := by
  have hmask : (0xFFFFF0000 : TxWord) = txWord 3 3 (BitVec.allOnes 8) (BitVec.allOnes 8) 0 := by decide
  rw [hmask, and_txWord, BitVec.and_allOnes, BitVec.and_allOnes, code_and_three, code_and_three]
  simp

end TxMasks

section RoundTrip
variable {regs : CondRegs} {i : Instr}

/-- The row of an RX operation is the first that its word matches. -/
theorem decode_encode_rx (hrx : i.isRx = true) (hwf : i.WellFormed) (hc : i.regCond regs = true) :
    decode regs (encode i) = .ok i := by
  cases i with
  | reset => exact decodeRx_reset regs 0 0
  | idleQuery => exact decodeRx_idleQuery regs 0 0
  | p1Match => exact decodeRx_p1 regs 0x24
  | p1Skip b => exact (decodeRx_p1 regs b).trans (congrArg _ (if_neg (of_decide_eq_true hwf)))
  | p2Match => exact decodeRx_p2 regs 0x4D
  | p2Miss b => exact (decodeRx_p2 regs b).trans (congrArg _ (if_neg (of_decide_eq_true hwf)))
  | dirTo => exact decodeRx_dir regs 0x3C
  | dirFrom => exact decodeRx_dir regs 0x3E
  | dirUns => exact decodeRx_dir regs 0x21
  | dirBad b =>
    obtain ⟨hto, hfrom, huns⟩ := Direction.ofByte_eq_none.1 (of_decide_eq_true hwf)
    exact (decodeRx_dir regs b).trans
      (congrArg _ ((if_neg hto).trans ((if_neg hfrom).trans (if_neg huns))))
  | len b => exact decodeRx_len regs b
  | opcZ b => exact (decodeRx_opc regs b).trans (congrArg _ (if_pos (beq_iff_eq.1 hc)))
  | opcNz b => exact (decodeRx_opc regs b).trans (congrArg _ (if_neg (bne_iff_ne.1 hc)))
  | payMore b => exact (decodeRx_pay regs b).trans (congrArg _ (if_neg (bne_iff_ne.1 hc)))
  | payLast b => exact (decodeRx_pay regs b).trans (congrArg _ (if_pos (beq_iff_eq.1 hc)))
  | chkOk b => exact (decodeRx_chk regs b).trans (congrArg _ (if_pos (beq_iff_eq.1 hc)))
  | chkBad b => exact (decodeRx_chk regs b).trans (congrArg _ (if_neg (bne_iff_ne.1 hc)))
  | wiresize | cksum | encodeOk | encodeErr => exact Bool.noConfusion hrx

/-- The word of an ENCODE row decodes to the row of its size. -/
theorem decodeTx_encode_word (d : Direction) (n op : Byte) (bufLen : BufLen) :
    decodeTx (txWord 2 d.code n op bufLen) = .ok (encodeRow d n op bufLen) := by
  have hd : Direction.ofCode (txDir (txWord 2 d.code n op bufLen)) = some d := by
    rw [txDir_txWord, Direction.ofCode_code]
  simpa using decodeTx_of_txOp_two (txOp_txWord _ _ _ _ _) hd

theorem decode_encode_tx (htx : i.isRx = false) (hwf : i.WellFormed) : decode regs (encode i) = .ok i := by
  cases i <;> try exact Bool.noConfusion htx
  case wiresize n =>
    have h := decodeTx_of_txOp_zero (txOp_txWord 0 0 n 0 0)
    rwa [txLen_txWord] at h
  case cksum d n op =>
    have hd : Direction.ofCode (txDir (txWord 1 d.code n op 0)) = some d := by
      rw [txDir_txWord, Direction.ofCode_code]
    have h := decodeTx_of_txOp_one (txOp_txWord 1 d.code n op 0) hd
    rwa [txLen_txWord, txOpcode_txWord] at h
  case encodeOk d n op bufLen =>
    exact (decodeTx_encode_word d n op bufLen).trans (congrArg _ (encodeRow_of_size (of_decide_eq_true hwf)))
  case encodeErr d n op bufLen =>
    exact (decodeTx_encode_word d n op bufLen).trans (congrArg _ (encodeRow_of_size_ne (of_decide_eq_true hwf)))

/-- What the word of a `PUSH` decodes to is in its row, and has that word. -/
theorem encode_of_decodeRx_push {st : BitVec 3} {b : Byte} (h : decodeRx regs (rxWord 0 st b) = .ok i) :
    i.WellFormed ∧ i.regCond regs = true ∧ encode i = .rx (rxWord 0 st b) := by
  rcases rxState_cases st with rfl | rfl | rfl | rfl | rfl | rfl | rfl | rfl
  · rw [decodeRx_p1] at h
    split at h <;> cases h
    · subst b; exact ⟨rfl, rfl, rfl⟩
    next hb => exact ⟨decide_eq_true hb, rfl, rfl⟩
  · rw [decodeRx_p2] at h
    split at h <;> cases h
    · subst b; exact ⟨rfl, rfl, rfl⟩
    next hb => exact ⟨decide_eq_true hb, rfl, rfl⟩
  · rw [decodeRx_dir] at h
    split_ifs at h with hto hfrom huns <;> cases h
    · subst b; exact ⟨rfl, rfl, rfl⟩
    · subst b; exact ⟨rfl, rfl, rfl⟩
    · subst b; exact ⟨rfl, rfl, rfl⟩
    · exact ⟨decide_eq_true (Direction.ofByte_eq_none.2 ⟨hto, hfrom, huns⟩), rfl, rfl⟩
  · rw [decodeRx_len] at h
    cases h; exact ⟨rfl, rfl, rfl⟩
  · rw [decodeRx_opc] at h
    split at h <;> cases h
    next hz => exact ⟨rfl, beq_iff_eq.2 hz, rfl⟩
    next hnz => exact ⟨rfl, bne_iff_ne.2 hnz, rfl⟩
  · rw [decodeRx_pay] at h
    split at h <;> cases h
    next hone => exact ⟨rfl, beq_iff_eq.2 hone, rfl⟩
    next hmore => exact ⟨rfl, bne_iff_ne.2 hmore, rfl⟩
  · rw [decodeRx_chk] at h
    split at h <;> cases h
    next hok => exact ⟨rfl, beq_iff_eq.2 hok, rfl⟩
    next hbad => exact ⟨rfl, bne_iff_ne.2 hbad, rfl⟩
  · rw [decodeRx_reservedState] at h; cases h

theorem encode_of_decodeRx {w : RxWord} (h : decodeRx regs w = .ok i) :
    i.WellFormed ∧ i.regCond regs = true ∧
      (rxOp w = 0 → encode i = .rx w) ∧ (rxOp w ≠ 0 → encode i = .rx (w &&& 0x1800)) := by
  rw [rxWord_and_op_mask]
  have hw := rxWord_fields w
  rw [← hw] at h
  rcases rxOp_cases (rxOp w) with hop | hop | hop | hop <;> rw [hop] at h hw ⊢
  · obtain ⟨hwf, hc, henc⟩ := encode_of_decodeRx_push h
    exact ⟨hwf, hc, fun _ => henc.trans (congrArg _ hw), fun hne => absurd rfl hne⟩
  · rw [decodeRx_reset] at h; cases h
    exact ⟨rfl, rfl, fun h => absurd h (by decide), fun _ => rfl⟩
  · rw [decodeRx_idleQuery] at h; cases h
    exact ⟨rfl, rfl, fun h => absurd h (by decide), fun _ => rfl⟩
  · rw [decodeRx_reservedRxop] at h; cases h

theorem encodeRow_wellFormed (d : Direction) (n op : Byte) (bufLen : BufLen) :
    (encodeRow d n op bufLen).WellFormed := by
  unfold encodeRow
  split
  next h => exact decide_eq_true h
  next h => exact decide_eq_true h

theorem encode_encodeRow (d : Direction) (n op : Byte) (bufLen : BufLen) :
    encode (encodeRow d n op bufLen) = .tx (txWord 2 d.code n op bufLen) := by
  unfold encodeRow
  split <;> rfl

theorem encode_of_decodeTx {w : TxWord} (h : decodeTx w = .ok i) :
    i.WellFormed ∧ (txOp w = 0 → encode i = .tx (w &&& 0x0FF000000)) ∧
      (txOp w = 1 → encode i = .tx (w &&& 0xFFFFF0000)) ∧ (txOp w = 2 → encode i = .tx w) := by
  obtain ⟨hop, hdec⟩ | ⟨-, hdec⟩ | ⟨-, -, hdec⟩ | ⟨hop, d, hd, hdec⟩ | ⟨hop, d, hd, hdec⟩ := decodeTx_cases w <;>
    rw [hdec] at h <;> cases h <;> rw [hop]
  · rw [and_wiresize_mask]
    exact ⟨rfl, fun _ => rfl, fun h => absurd h (by decide), fun h => absurd h (by decide)⟩
  · rw [and_cksum_mask, hop, Direction.ofCode_eq_some hd]
    exact ⟨rfl, fun h => absurd h (by decide), fun _ => rfl, fun h => absurd h (by decide)⟩
  · have hw : txWord 2 d.code (txLen w) (txOpcode w) (txBufLen w) = w := by
      rw [← Direction.ofCode_eq_some hd, ← hop, txWord_fields]
    exact ⟨encodeRow_wellFormed .., fun h => absurd h (by decide), fun h => absurd h (by decide),
      fun _ => (encode_encodeRow ..).trans (congrArg _ hw)⟩

end RoundTrip

/-- Settles O2: row by row, for each agent. -/
theorem decodeEncodeAgree : Obligations.DecodeEncodeAgree := by
  unfold Obligations.DecodeEncodeAgree
  intro regs i hwf hc
  cases hrx : i.isRx with
  | true => exact decode_encode_rx hrx hwf hc
  | false => exact decode_encode_tx hrx hwf

/-- Settles O3: by the fields of the word, for each agent. -/
theorem encodeDecodeAgree : Obligations.EncodeDecodeAgree := by
  unfold Obligations.EncodeDecodeAgree
  exact fun _ _ => ⟨fun _ => encode_of_decodeRx, fun _ => encode_of_decodeTx⟩

/-- Settles O1: twenty-one fixed words, each decoded. -/
theorem sampleWordsDecode : Obligations.SampleWordsDecode := by
  unfold Obligations.SampleWordsDecode
  decide

end Sys2Proof
end

section
/-! What an operation reads and writes: each agent has its own part of the state (00_scope.md section 3). -/

namespace Sys2Proof.Machine

section Agents
variable {i j : Instr} {s t u : State}

/-- An RX operation reads the RX registers alone, and writes them and the RX result, whatever else a state holds. -/
theorem exec_rx_local (hi : i.isRx = true) (he : exec i s = .next t) (src buf : Memory) (l : List Input)
    (o : RxOutput) (x : TxOutput) :
    exec i ⟨s.rx, src, buf, l, o, x⟩ = .next ⟨t.rx, src, buf, l, t.rxOut, x⟩ := by
  cases i with
  | reset => obtain rfl := execReset_next.1 he; rfl
  | idleQuery => obtain rfl := execIdleQuery_next.1 he; rfl
  | p1Match => obtain ⟨h, rfl⟩ := execP1Match_next.1 he; exact execP1Match_next.2 ⟨h, rfl⟩
  | p1Skip b => obtain ⟨h, rfl⟩ := execP1Skip_next.1 he; exact execP1Skip_next.2 ⟨h, rfl⟩
  | p2Match => obtain ⟨h, rfl⟩ := execP2Match_next.1 he; exact execP2Match_next.2 ⟨h, rfl⟩
  | p2Miss b => obtain ⟨h, rfl⟩ := execP2Miss_next.1 he; exact execP2Miss_next.2 ⟨h, rfl⟩
  | dirTo | dirFrom | dirUns => obtain ⟨h, rfl⟩ := storeDirection_next.1 he; exact storeDirection_next.2 ⟨h, rfl⟩
  | dirBad b => obtain ⟨h, rfl⟩ := execDirBad_next.1 he; exact execDirBad_next.2 ⟨h, rfl⟩
  | len b => obtain ⟨h, rfl⟩ := execLen_next.1 he; exact execLen_next.2 ⟨h, rfl⟩
  | opcZ b => obtain ⟨h, rfl⟩ := execOpcZ_next.1 he; exact execOpcZ_next.2 ⟨h, rfl⟩
  | opcNz b => obtain ⟨h, rfl⟩ := execOpcNz_next.1 he; exact execOpcNz_next.2 ⟨h, rfl⟩
  | payMore b => obtain ⟨h, h0, hroom, rfl⟩ := execPayMore_next.1 he; exact execPayMore_next.2 ⟨h, h0, hroom, rfl⟩
  | payLast b => obtain ⟨h, hroom, rfl⟩ := execPayLast_next.1 he; exact execPayLast_next.2 ⟨h, hroom, rfl⟩
  | chkOk b => obtain ⟨h, d, hd, rfl⟩ := execChkOk_next.1 he; exact execChkOk_next.2 ⟨h, d, hd, rfl⟩
  | chkBad b => obtain ⟨h, rfl⟩ := execChkBad_next.1 he; exact execChkBad_next.2 ⟨h, rfl⟩
  | wiresize | cksum | encodeOk | encodeErr => exact Bool.noConfusion hi

theorem exec_rx_eq (hi : i.isRx = true) (he : exec i s = .next t) :
    t = { s with rx := t.rx, rxOut := t.rxOut } := by
  have hlocal := exec_rx_local hi he s.txsrc s.txbuf s.inputs s.rxOut s.txOut
  exact next_eq.1 (hlocal.symm.trans he)

/-- A TX operation reads the caller's memories alone, and writes TXBUF and the TX result, whatever else a state
holds. -/
theorem exec_tx_local (hi : i.isRx = false) (he : exec i s = .next t) (r : RxRegs) (l : List Input) (o : RxOutput)
    (x : TxOutput) :
    exec i ⟨r, s.txsrc, s.txbuf, l, o, x⟩ = .next ⟨r, s.txsrc, t.txbuf, l, o, t.txOut⟩ := by
  cases i <;> try exact Bool.noConfusion hi
  case wiresize n => obtain rfl := execWiresize_next.1 he; rfl
  case cksum d n op => obtain rfl := (execCksum_next d).1 he; exact (execCksum_next d).2 rfl
  case encodeOk d n op bufLen => obtain ⟨h, rfl⟩ := execEncodeOk_next.1 he; exact execEncodeOk_next.2 ⟨h, rfl⟩
  case encodeErr d n op bufLen =>
    obtain ⟨h, rfl⟩ := (execEncodeErr_next d op).1 he; exact (execEncodeErr_next d op).2 ⟨h, rfl⟩

theorem exec_tx_eq (hi : i.isRx = false) (he : exec i s = .next t) :
    t = { s with txbuf := t.txbuf, txOut := t.txOut } := by
  have hlocal := exec_tx_local hi he s.rx s.inputs s.rxOut s.txOut
  exact next_eq.1 (hlocal.symm.trans he)

/-- Only ENCODE.OK writes TXBUF. -/
theorem exec_tx_txbuf (hi : i.isRx = false) (hne : ∀ d n op bufLen, i ≠ .encodeOk d n op bufLen)
    (he : exec i s = .next t) : t.txbuf = s.txbuf := by
  cases i <;> try exact Bool.noConfusion hi
  case wiresize n => obtain rfl := execWiresize_next.1 he; rfl
  case cksum d n op => obtain rfl := (execCksum_next d).1 he; rfl
  case encodeOk d n op bufLen => exact absurd rfl (hne d n op bufLen)
  case encodeErr d n op bufLen => obtain ⟨-, rfl⟩ := (execEncodeErr_next d op).1 he; rfl

theorem exec_rx_tx_comm (hi : i.isRx = true) (hj : j.isRx = false) (ht : exec i s = .next t)
    (hu : exec j s = .next u) :
    exec j t = .next ⟨t.rx, s.txsrc, u.txbuf, s.inputs, t.rxOut, u.txOut⟩ ∧
    exec i u = .next ⟨t.rx, s.txsrc, u.txbuf, s.inputs, t.rxOut, u.txOut⟩ := by
  rw [exec_rx_eq hi ht, exec_tx_eq hj hu]
  exact ⟨exec_tx_local hj hu _ _ _ _, exec_rx_local hi ht _ _ _ _ _⟩

/-- The operand of a TX operation is its word and the content of TXSRC. -/
theorem txFrame_congr {s' : State} (h : s.txsrc = s'.txsrc) (d : Direction) (n op : Byte) :
    txFrame d n op s = txFrame d n op s' := by
  simp only [txFrame, txPayload, h]

end Agents

/-- Settles O33: `exec_rx_eq` names the two fields that can change. -/
theorem rxOperationsFrame : Obligations.RxOperationsFrame := by
  unfold Obligations.RxOperationsFrame
  intro i s t hi he
  rw [exec_rx_eq hi he]
  exact ⟨rfl, rfl, rfl, rfl, fun _ => ⟨rfl, rfl⟩⟩

/-- Settles O34: `exec_tx_eq` names the two fields that can change; ENCODE.OK writes the cells of the frame
(`Memory.read_encode_above`), the others no cell (`exec_tx_txbuf`). -/
theorem txOperationsFrame : Obligations.TxOperationsFrame := by
  unfold Obligations.TxOperationsFrame
  intro i s t hi he
  have hsrc : t.txsrc = s.txsrc := by rw [exec_tx_eq hi he]
  refine ⟨exec_tx_rx hi he, by rw [exec_tx_eq hi he], hsrc, by rw [exec_tx_eq hi he], fun a => by rw [hsrc], ?_,
    fun hne a => by rw [exec_tx_txbuf hi hne he]⟩
  rintro d n op bufLen rfl a ha
  obtain ⟨-, rfl⟩ := execEncodeOk_next.1 he
  exact Memory.read_encode_above (txPayload_length n s) ha

/-- Settles O55: each agent's operation reads nothing that the other's writes. -/
theorem agentsCommute : Obligations.AgentsCommute := by
  unfold Obligations.AgentsCommute
  exact fun _ _ _ _ _ hi hj ht hu => ⟨_, exec_rx_tx_comm hi hj ht hu⟩

/-- Settles O56: every result is computed from the word and TXSRC; a cell of ENCODE.OK's buffer is the byte of the
frame at its offset, whatever it held (`Memory.read_encode`). -/
theorem txOperationsPure : Obligations.TxOperationsPure := by
  unfold Obligations.TxOperationsPure
  intro i s s' t hm hm' hi hsrc he
  cases i <;> try exact Bool.noConfusion hi
  case wiresize n =>
    obtain rfl := execWiresize_next.1 he
    exact ⟨_, execWiresize_next.2 rfl, rfl, fun _ _ _ _ h => by cases h⟩
  case cksum d n op =>
    obtain rfl := (execCksum_next d).1 he
    refine ⟨_, (execCksum_next d).2 rfl, ?_, fun _ _ _ _ h => by cases h⟩
    simp only [txPayload, hsrc]
  case encodeErr d n op bufLen =>
    obtain ⟨h, rfl⟩ := (execEncodeErr_next d op).1 he
    exact ⟨_, (execEncodeErr_next d op).2 ⟨h, rfl⟩, rfl, fun _ _ _ _ h => by cases h⟩
  case encodeOk d n op bufLen =>
    obtain ⟨h, rfl⟩ := execEncodeOk_next.1 he
    refine ⟨_, execEncodeOk_next.2 ⟨h, rfl⟩, rfl, ?_⟩
    rintro _ _ _ _ ⟨⟩ a ha
    have hlen : (txFrame d n op s).payload.length = n.toNat := txPayload_length n s
    have hbyte : a < (txFrame d n op s).bytes.length := by rwa [Frame.bytes_length, hlen]
    have hget := List.getElem?_eq_getElem hbyte
    simp only [← txFrame_congr hsrc]
    rw [Memory.read_encode hm hlen hget, Memory.read_encode hm' hlen hget]

/-- Settles O35: the update of each class names the registers it writes. -/
theorem rxRegistersFrame : Obligations.RxRegistersFrame := by
  unfold Obligations.RxRegistersFrame
  intro s t b
  refine ⟨fun h => ?_, fun h => ?_, fun h => ?_, fun h => ?_, fun h => ?_, fun h => ?_⟩
  · obtain rfl := execIdleQuery_next.1 h; rfl
  · rcases h with h | h
    · obtain ⟨-, rfl⟩ := execP1Match_next.1 h; exact ⟨rfl, rfl, rfl, rfl, rfl⟩
    · obtain ⟨-, rfl⟩ := execP2Match_next.1 h; exact ⟨rfl, rfl, rfl, rfl, rfl⟩
  · have hstore : ∃ d, storeDirection d s = .next t := by
      rcases h with h | h | h <;> exact ⟨_, h⟩
    obtain ⟨d, hd⟩ := hstore
    obtain ⟨-, rfl⟩ := storeDirection_next.1 hd; exact ⟨rfl, rfl, rfl, rfl⟩
  · obtain ⟨-, rfl⟩ := execLen_next.1 h; exact ⟨rfl, rfl, rfl⟩
  · rcases h with h | h
    · obtain ⟨-, rfl⟩ := execOpcZ_next.1 h; exact ⟨rfl, rfl, rfl⟩
    · obtain ⟨-, rfl⟩ := execOpcNz_next.1 h; exact ⟨rfl, rfl, rfl⟩
  · rcases h with h | h
    · obtain ⟨-, -, -, rfl⟩ := execPayMore_next.1 h; exact ⟨rfl, rfl⟩
    · obtain ⟨-, -, rfl⟩ := execPayLast_next.1 h; exact ⟨rfl, rfl⟩

end Sys2Proof.Machine
end

section
/-! Where an operation completes and where it stops (10_state.md R17, 20_memory.md section 6). -/

namespace Sys2Proof.Machine

section Invariant
variable {r : RxRegs}

theorem RxRegs.Inv.of_pay (hi : r.Inv) (h : r.state = .pay) :
    1 ≤ r.remaining.toNat ∧ r.payload.length + r.remaining.toNat ≤ 255 := by
  unfold RxRegs.Inv at hi
  rw [h] at hi
  obtain ⟨-, hpos, hlen, -⟩ := hi
  exact ⟨hpos, hlen⟩

theorem RxRegs.Inv.of_chk (hi : r.Inv) (h : r.state = .chk) :
    (∃ d, r.direction = some d) ∧ r.declaredLength = r.payload.length ∧ r.payload.length ≤ 255 ∧
      r.checksum = wireChecksum (BitVec.ofNat 8 r.payload.length) r.opcode r.payload := by
  unfold RxRegs.Inv at hi
  rw [h] at hi
  obtain ⟨hd, hrem, hlen, hck⟩ := hi
  have hdecl : r.declaredLength = r.payload.length := by rw [RxRegs.declaredLength, hrem]; rfl
  rw [RxRegs.foldSoFar, hdecl] at hck
  exact ⟨Option.ne_none_iff_exists'.1 hd, hdecl, hdecl ▸ hlen, hck⟩

end Invariant

section Completion
variable {i : Instr} {s t : State}

/-- Under the invariant an operation whose rule applies completes: PAY has room in RXBUF, CHK a direction. -/
theorem exec_of_precondition (hi : s.rx.Inv) (h : precondition i s.rx = true) : ∃ t, exec i s = .next t := by
  cases i with
  | reset => exact ⟨_, execReset_next.2 rfl⟩
  | idleQuery => exact ⟨_, execIdleQuery_next.2 rfl⟩
  | p1Match => exact ⟨_, execP1Match_next.2 ⟨of_decide_eq_true h, rfl⟩⟩
  | p1Skip b => exact ⟨_, execP1Skip_next.2 ⟨of_decide_eq_true h, rfl⟩⟩
  | p2Match => exact ⟨_, execP2Match_next.2 ⟨of_decide_eq_true h, rfl⟩⟩
  | p2Miss b => exact ⟨_, execP2Miss_next.2 ⟨of_decide_eq_true h, rfl⟩⟩
  | dirTo | dirFrom | dirUns => exact ⟨_, storeDirection_next.2 ⟨of_decide_eq_true h, rfl⟩⟩
  | dirBad b =>
    obtain ⟨hst, hb⟩ := of_decide_eq_true h
    exact ⟨_, execDirBad_next.2 ⟨⟨hst, Direction.ofByte_eq_none.2 hb⟩, rfl⟩⟩
  | len b => exact ⟨_, execLen_next.2 ⟨of_decide_eq_true h, rfl⟩⟩
  | opcZ b => exact ⟨_, execOpcZ_next.2 ⟨of_decide_eq_true h, rfl⟩⟩
  | opcNz b => exact ⟨_, execOpcNz_next.2 ⟨of_decide_eq_true h, rfl⟩⟩
  | payMore b =>
    obtain ⟨hst, htwo⟩ := of_decide_eq_true h
    obtain ⟨-, hroom⟩ := hi.of_pay hst
    have hne1 : s.rx.remaining ≠ 1 := by intro h1; simp [h1] at htwo
    have hne0 : s.rx.remaining ≠ 0 := by intro h0; simp [h0] at htwo
    exact ⟨_, execPayMore_next.2 ⟨⟨hst, hne1⟩, hne0, by omega, rfl⟩⟩
  | payLast b =>
    obtain ⟨hst, hone⟩ := of_decide_eq_true h
    obtain ⟨hpos, hroom⟩ := hi.of_pay hst
    exact ⟨_, execPayLast_next.2 ⟨⟨hst, hone⟩, by omega, rfl⟩⟩
  | chkOk b =>
    obtain ⟨hst, hb⟩ := of_decide_eq_true h
    obtain ⟨⟨d, hd⟩, -⟩ := hi.of_chk hst
    exact ⟨_, execChkOk_next.2 ⟨⟨hst, hb⟩, d, hd, rfl⟩⟩
  | chkBad b => exact ⟨_, execChkBad_next.2 ⟨of_decide_eq_true h, rfl⟩⟩
  | wiresize n => exact ⟨_, execWiresize_next.2 rfl⟩
  | cksum d n op => exact ⟨_, (execCksum_next d).2 rfl⟩
  | encodeOk d n op bufLen => exact ⟨_, execEncodeOk_next.2 ⟨of_decide_eq_true h, rfl⟩⟩
  | encodeErr d n op bufLen => exact ⟨_, (execEncodeErr_next d op).2 ⟨of_decide_eq_true h, rfl⟩⟩

/-- Outside its rule an operation is refused; PAY.MORE with the counter at 0 is the one that is stuck instead. -/
theorem exec_outside_precondition (h : precondition i s.rx = false)
    (hpay : ∀ b, i = .payMore b → s.rx.state = .pay → s.rx.remaining ≠ 0) : exec i s = .refused .outsideClass := by
  cases i with
  | reset | idleQuery | wiresize | cksum => exact Bool.noConfusion h
  | p1Match | p1Skip | p2Match | p2Miss | dirTo | dirFrom | dirUns | len | opcZ | opcNz | payLast | chkOk | chkBad
  | encodeOk | encodeErr => exact if_neg (of_decide_eq_false h)
  | dirBad b =>
    have hout := of_decide_eq_false h
    rw [← Direction.ofByte_eq_none] at hout
    exact if_neg hout
  | payMore b =>
    refine if_neg fun hguard => of_decide_eq_false h ⟨hguard.1, ?_⟩
    have hne0 : s.rx.remaining.toNat ≠ 0 := fun h0 => hpay b rfl hguard.1 (BitVec.eq_of_toNat_eq h0)
    have hne1 : s.rx.remaining.toNat ≠ 1 := fun h1 => hguard.2 (BitVec.eq_of_toNat_eq h1)
    omega

theorem State.storePayloadByte_of_full (h : 255 ≤ s.rx.payload.length) (b : Byte) (st : RxState) :
    s.storePayloadByte b st = .fault .rxbufFull :=
  if_neg (Nat.not_lt.2 h)

theorem execPayMore_of_two_le {b : Byte} (hst : s.rx.state = .pay) (h : 2 ≤ s.rx.remaining.toNat) :
    execPayMore b s = s.storePayloadByte b .pay := by
  have hne1 : s.rx.remaining ≠ 1 := by intro h1; simp [h1] at h
  have hne0 : s.rx.remaining ≠ 0 := by intro h0; simp [h0] at h
  exact (if_pos ⟨hst, hne1⟩).trans (if_neg hne0)

/-- The class of a `PUSH` is one whose rule applies. -/
theorem push_precondition {r : RxRegs} {b : Byte} (hi : r.Inv) (h : (Request.rx 0 b).decode r = .ok i) :
    precondition i r = true := by
  rw [push_decode] at h
  cases hst : r.state <;> simp only [hst, Except.ok.injEq] at h <;> subst h
  case len => exact decide_eq_true hst
  case p1 | p2 =>
    split
    · exact decide_eq_true hst
    next hb => exact decide_eq_true ⟨hst, hb⟩
  case dir =>
    split_ifs with hto hfrom huns
    case neg => exact decide_eq_true ⟨hst, hto, hfrom, huns⟩
    all_goals exact decide_eq_true hst
  case opc | chk =>
    split
    next hcond => exact decide_eq_true ⟨hst, hcond⟩
    next hcond => exact decide_eq_true ⟨hst, hcond⟩
  case pay =>
    split
    next hone => exact decide_eq_true ⟨hst, hone⟩
    next hmore =>
      obtain ⟨hpos, -⟩ := hi.of_pay hst
      have hne1 : r.remaining.toNat ≠ 1 := fun h1 => hmore (BitVec.eq_of_toNat_eq h1)
      exact decide_eq_true ⟨hst, by omega⟩

theorem decodeRx_precondition {r : RxRegs} {rxop : BitVec 2} {b : Byte} (hi : r.Inv)
    (h : (Request.rx rxop b).decode r = .ok i) : precondition i r = true := by
  obtain ⟨-, hd⟩ | ⟨-, hd⟩ | ⟨-, hd⟩ | ⟨-, hd⟩ := Request.decode_rx_cases r rxop b <;> rw [hd] at h
  · exact push_precondition hi h
  · cases h; rfl
  · cases h; rfl
  · cases h

/-- The rule of a TX word's row is about its operands, so it applies under all registers. -/
theorem decodeTx_precondition {w : TxWord} (r : RxRegs) (h : decodeTx w = .ok i) : precondition i r = true := by
  obtain ⟨-, hd⟩ | ⟨-, hd⟩ | ⟨-, -, hd⟩ | ⟨-, d, -, hd⟩ | ⟨-, d, -, hd⟩ := decodeTx_cases w <;>
    rw [hd] at h <;> cases h
  · rfl
  · rfl
  · unfold encodeRow
    split
    next hsize => exact decide_eq_true hsize
    next hsize => exact decide_eq_true hsize

/-- Under the invariant what a request decodes to completes. -/
theorem exec_of_decode {r : Request} (hi : s.rx.Inv) (h : r.decode s.rx = .ok i) : ∃ t, exec i s = .next t := by
  cases r with
  | rx rxop b => exact exec_of_precondition hi (decodeRx_precondition hi h)
  | tx w => exact exec_of_precondition hi (decodeTx_precondition s.rx h)

end Completion

/-- Settles O31: `decodeRx_precondition` and `decodeTx_precondition`. -/
theorem decodedOperationMayRun : Obligations.DecodedOperationMayRun := by
  unfold Obligations.DecodedOperationMayRun
  exact ⟨fun _ _ _ _ => decodeRx_precondition, fun _ r _ => decodeTx_precondition r⟩

/-- Settles O29: case by case, `exec_of_precondition`. -/
theorem everyOperationCompletes : Obligations.EveryOperationCompletes := by
  unfold Obligations.EveryOperationCompletes
  exact fun _ _ => exec_of_precondition

/-- Settles O30: `exec_outside_precondition`, and the three faults by the guards of their meanings. -/
theorem outsidePreconditionStops : Obligations.OutsidePreconditionStops := by
  unfold Obligations.OutsidePreconditionStops
  refine ⟨fun _ _ => exec_outside_precondition, fun s b hst h0 => ?_, fun s b hst h2 hfull => ?_,
    fun s b hst h1 hfull => ?_, fun s b hst hb hd => ?_⟩
  · have hne1 : s.rx.remaining ≠ 1 := by rw [h0]; decide
    exact (if_pos ⟨hst, hne1⟩).trans (if_pos h0)
  · exact (execPayMore_of_two_le hst h2).trans (State.storePayloadByte_of_full hfull b .pay)
  · exact (if_pos ⟨hst, h1⟩).trans (State.storePayloadByte_of_full hfull b .chk)
  · refine (if_pos ⟨hst, hb⟩).trans ?_
    rw [hd]

/-- Settles O20: the decoding is the CHK rows of the table, the effect is `State.emitFrame`; under the invariant the
checksum register is the checksum of the Frame (`RxRegs.Inv.of_chk`), and `exec_rx_rxOut` says that no other RX
operation answers a Frame. -/
theorem frameEmitted : Obligations.FrameEmitted := by
  unfold Obligations.FrameEmitted
  refine ⟨fun regs b h => ?_, fun s b d hst hb hd => ⟨_, execChkOk_next.2 ⟨⟨hst, hb⟩, d, hd, rfl⟩, rfl, rfl⟩,
    fun s b hi hst hb => ?_, fun i s t f d hrx he ho => ?_⟩
  · rw [decodeRx_ofNat regs 0x0600 6 b rfl, decodeRx_chk, if_pos h]
  · obtain ⟨⟨d, hd⟩, hdecl, hlen, hck⟩ := hi.of_chk hst
    exact ⟨_, _, execChkOk_next.2 ⟨⟨hst, hb⟩, d, hd, rfl⟩, rfl, hlen, hb.trans hck, hdecl.symm⟩
  · obtain ⟨b, _, rfl, -⟩ | ⟨_, -, h⟩ | ⟨_, h⟩ | h | ⟨_, h⟩ := exec_rx_rxOut hrx he
    · exact ⟨b, rfl⟩
    all_goals rw [ho] at h; cases h

end Sys2Proof.Machine
end

section
/-! The step, by its input, and the invariant it keeps (10_state.md sections 1 and 4, 20_memory.md section 6). -/

namespace Sys2Proof.Machine

section Step
variable {s t : State} {rest : List Input}

theorem step_of_decode_ok {r : Request} {i : Instr} (h : s.inputs = .op r :: rest) (hd : r.decode s.rx = .ok i) :
    step s = exec i (s.withInputs rest) := by
  rw [step_op h, hd]

theorem step_of_decode_error {r : Request} {e : DecodeError} (h : s.inputs = .op r :: rest)
    (hd : r.decode s.rx = .error e) : step s = .refused (.reservedWord e) := by
  rw [step_op h, hd]

section CallerWrite
variable {a : Nat} (v : Byte)

theorem State.callerWrite_txsrc (s : State) (h : a < 255) :
    s.callerWrite .txsrc a v = .next (s.withTxsrc (Memory.write s.txsrc a v)) :=
  if_pos h

theorem State.callerWrite_txbuf (s : State) (h : a < 65535) :
    s.callerWrite .txbuf a v = .next (s.withTxbuf (Memory.write s.txbuf a v)) :=
  if_pos h

theorem State.callerWrite_outside (s : State) {space : CallerSpace} (h : space.cells ≤ a) :
    s.callerWrite space a v = .fault .noSuchCell :=
  if_neg (Nat.not_lt.2 h)

end CallerWrite

/-- The invariant does not speak of the pending inputs. -/
theorem State.Inv.withInputs (hi : s.Inv) (l : List Input) : (s.withInputs l).Inv :=
  ⟨hi.rx, hi.txsrc, hi.txbuf, hi.emitted⟩

/-- A reset keeps the invariant: it answers no Frame. -/
theorem State.Inv.reset (hi : s.Inv) : ({ s with rx := RxRegs.initial, rxOut := .none } : State).Inv :=
  ⟨RxRegs.initial_inv, hi.txsrc, hi.txbuf, fun _ _ h => by cases h⟩

theorem State.Inv.idleAnswer (hi : s.Inv) (b : Bool) : (s.withRxOut (.idle b)).Inv :=
  ⟨hi.rx, hi.txsrc, hi.txbuf, fun _ _ h => by cases h⟩

/-- A write of the caller inside its memory keeps the invariant. -/
theorem State.Inv.callerWrite (hi : s.Inv) {space : CallerSpace} {a : Nat} (h : a < space.cells) (v : Byte) :
    ∃ t, s.callerWrite space a v = .next t ∧ t.Inv := by
  cases space with
  | txsrc => exact ⟨_, State.callerWrite_txsrc v s h, hi.rx, hi.txsrc.write h v, hi.txbuf, hi.emitted⟩
  | txbuf => exact ⟨_, State.callerWrite_txbuf v s h, hi.rx, hi.txsrc, hi.txbuf.write h v, hi.emitted⟩

/-- A TX operation keeps the invariant: the cells of ENCODE.OK are inside TXBUF. -/
theorem State.Inv.exec_tx {i : Instr} (hi : s.Inv) (htx : i.isRx = false) (he : exec i s = .next t) : t.Inv := by
  have hbuf : Memory.Within t.txbuf Config.TXBUF_CELLS := by
    cases i <;> try exact Bool.noConfusion htx
    case encodeOk d n op bufLen =>
      obtain ⟨-, rfl⟩ := execEncodeOk_next.1 he
      exact Memory.within_encode hi.txbuf n _ (txPayload_length n s)
    all_goals exact exec_tx_txbuf htx (fun _ _ _ _ h => by cases h) he ▸ hi.txbuf
  rw [exec_tx_eq htx he]
  exact ⟨hi.rx, hi.txsrc, hbuf, hi.emitted⟩

/-- A presented operation answers a next state of the invariant, or is refused for a reserved code. -/
theorem State.Inv.step_op (hi : s.Inv) {r : Request} (h : s.inputs = .op r :: rest) :
    (∃ t, step s = .next t ∧ t.Inv) ∨ ∃ e, step s = .refused (.reservedWord e) := by
  cases r with
  | rx rxop b =>
    obtain ⟨rfl, -⟩ | ⟨-, hd⟩ | ⟨-, hd⟩ | ⟨-, hd⟩ := Request.decode_rx_cases s.rx rxop b
    · exact .inl ⟨_, step_push_of_inputs hi.rx h, hi.pushed b rest⟩
    · exact .inl ⟨_, (step_of_decode_ok h hd).trans (execReset_next.2 rfl), (hi.withInputs rest).reset⟩
    · exact .inl ⟨_, (step_of_decode_ok h hd).trans (execIdleQuery_next.2 rfl), (hi.withInputs rest).idleAnswer _⟩
    · exact .inr ⟨_, step_of_decode_error h hd⟩
  | tx w =>
    cases hd : (Request.tx w).decode s.rx with
    | error e => exact .inr ⟨e, step_of_decode_error h hd⟩
    | ok i =>
      obtain ⟨t, he⟩ := exec_of_decode (s := s.withInputs rest) hi.rx hd
      exact .inl ⟨t, (step_of_decode_ok h hd).trans he, (hi.withInputs rest).exec_tx (decodeTx_isRx hd) he⟩

/-- All that a step can do in a state of the invariant. -/
theorem State.Inv.step_cases (hi : s.Inv) :
    (∃ t, step s = .next t ∧ t.Inv) ∨ (∃ e, step s = .refused (.reservedWord e)) ∨
      ∃ space a v rest, s.inputs = .callerWrite space a v :: rest ∧ space.cells ≤ a ∧
        step s = .fault .noSuchCell := by
  cases hin : s.inputs with
  | nil => exact .inl ⟨s, step_pause hin, hi⟩
  | cons input rest =>
    cases input with
    | op r => exact (hi.step_op hin).imp_right .inl
    | hwReset c =>
      exact .inl ⟨_, (step_hwReset hin).trans (execReset_next.2 rfl), (hi.withInputs rest).reset⟩
    | callerWrite space a v =>
      rw [step_callerWrite hin]
      rcases Nat.lt_or_ge a space.cells with h | h
      · exact .inl ((hi.withInputs rest).callerWrite h v)
      · exact .inr (.inr ⟨space, a, v, rest, rfl, h, State.callerWrite_outside v _ h⟩)

end Step

/-- Settles O37: the initial registers, empty memories and no result. -/
theorem invariantAtReset : Obligations.InvariantAtReset := by
  unfold Obligations.InvariantAtReset
  exact ⟨RxRegs.initial_inv, Memory.within_nil _, Memory.within_nil _, fun _ _ h => by cases h⟩

/-- Settles O38: by the cases of a step, `State.Inv.step_cases`. -/
theorem stepKeepsInvariant : Obligations.StepKeepsInvariant := by
  unfold Obligations.StepKeepsInvariant
  intro s t hi he
  obtain ⟨t', h, ht⟩ | ⟨_, h⟩ | ⟨_, _, _, _, -, -, h⟩ := hi.step_cases <;> rw [he] at h <;> cases h
  exact ht

/-- Settles O32: by the cases of a step, `State.Inv.step_cases`. -/
theorem invariantStatesNeverFault : Obligations.InvariantStatesNeverFault := by
  unfold Obligations.InvariantStatesNeverFault
  intro s hi hcell
  obtain ⟨t, h, -⟩ | ⟨e, h⟩ | ⟨space, a, v, rest, hin, hout, -⟩ := hi.step_cases
  · rw [h]; exact ⟨nofun, nofun⟩
  · rw [h]; exact ⟨nofun, fun _ hr => ⟨e, (Host.Outcome.refused.inj hr).symm⟩⟩
  · exact absurd (hcell space a v rest hin) (Nat.not_lt.2 hout)

/-- Settles O8: `step_of_decode_ok` and `step_of_decode_error` for the requests of each agent. -/
theorem stepRunsDecodedOperation : Obligations.StepRunsDecodedOperation := by
  unfold Obligations.StepRunsDecodedOperation
  exact fun _ _ => ⟨fun rxop b _ => step_of_decode_ok (r := .rx rxop b),
    fun rxop b _ => step_of_decode_error (r := .rx rxop b),
    fun w _ => step_of_decode_ok (r := .tx w), fun w _ => step_of_decode_error (r := .tx w)⟩

/-- Settles O9: the input's operation is not decoded (`step_hwReset`). -/
theorem hardwareResetWins : Obligations.HardwareResetWins := by
  unfold Obligations.HardwareResetWins
  exact fun _ _ _ h => ⟨step_hwReset h, (step_hwReset h).trans (execReset_next.2 rfl)⟩

/-- Settles O10: `step_pause`. -/
theorem pauseChangesNothing : Obligations.PauseChangesNothing := by
  unfold Obligations.PauseChangesNothing
  exact fun _ => step_pause

/-- Settles O11: the memory after the write by `Memory.read_write_self` and `Memory.read_write_other`. -/
theorem callerWritesOneCell : Obligations.CallerWritesOneCell := by
  unfold Obligations.CallerWritesOneCell
  intro s rest a v hi
  refine ⟨fun h ha => ?_, fun h ha => ?_, fun h ha => ?_, fun h ha => ?_⟩
  · exact ⟨_, (step_callerWrite h).trans (State.callerWrite_txsrc v _ ha),
      Memory.read_write_self hi.txsrc.canonical a v, fun b hb => Memory.read_write_other hb.symm v⟩
  · exact ⟨_, (step_callerWrite h).trans (State.callerWrite_txbuf v _ ha),
      Memory.read_write_self hi.txbuf.canonical a v, fun b hb => Memory.read_write_other hb.symm v⟩
  · exact (step_callerWrite h).trans (State.callerWrite_outside v _ ha)
  · exact (step_callerWrite h).trans (State.callerWrite_outside v _ ha)

/-- Both rows of ENCODE complete; the size picks the result. -/
theorem exec_encodeRow (s : State) (d : Direction) (n op : Byte) (bufLen : BufLen) :
    ∃ t, exec (encodeRow d n op bufLen) s = .next t ∧ t.inputs = s.inputs ∧
      t.txOut = .encoded (if bufLen.toNat = 6 + n.toNat then .ok else .error) := by
  by_cases hsize : bufLen.toNat = 6 + n.toNat
  · rw [encodeRow_of_size hsize, if_pos hsize]
    exact ⟨_, execEncodeOk_next.2 ⟨hsize, rfl⟩, rfl, rfl⟩
  · rw [encodeRow_of_size_ne hsize, if_neg hsize]
    exact ⟨_, (execEncodeErr_next d op).2 ⟨hsize, rfl⟩, rfl, rfl⟩

/-- Settles O57: the word's operation code picks the row, and the row's result is of its own kind. -/
theorem txWordsComplete : Obligations.TxWordsComplete := by
  unfold Obligations.TxWordsComplete
  intro s w rest h hres hdir
  have hrun {i : Instr} {t : State} (hd : decodeTx w = .ok i) (he : exec i (s.withInputs rest) = .next t) :
      step s = .next t := (step_of_decode_ok (r := .tx w) h hd).trans he
  obtain ⟨hop, hd⟩ | ⟨hop, -⟩ | ⟨hop, hz, -⟩ | ⟨hop, d, -, hd⟩ | ⟨hop, d, -, hd⟩ := decodeTx_cases w
  · exact ⟨_, hrun hd (execWiresize_next.2 rfl), rfl, fun _ => rfl, by simp [hop], by simp [hop]⟩
  · exact absurd hop hres
  · exact absurd hz (hdir (by rcases hop with hop | hop <;> rw [hop] <;> decide))
  · exact ⟨_, hrun hd ((execCksum_next d).2 rfl), rfl, by simp [hop], fun _ => ⟨_, rfl⟩, by simp [hop]⟩
  · obtain ⟨t, he, hin, hout⟩ := exec_encodeRow (s.withInputs rest) d (txLen w) (txOpcode w) (txBufLen w)
    exact ⟨t, hrun hd he, hin, by simp [hop], by simp [hop], fun _ => hout⟩

end Sys2Proof.Machine
end

section
/-! Runs over the list of inputs (20_memory.md R36, 30_encoding.md R60; log entries 1, 5, 10). -/

namespace Sys2Proof.Machine

section Queue
variable {s t : State}

/-- A `PUSH` that completes, taken from a longer queue: the bytes after it stay pending. -/
theorem step_push_queued {b : Byte} (l : List Input) (h : step (s.present (.rx 0 b)) = .next t) :
    step { s with inputs := .op (.rx 0 b) :: l } = .next { t with inputs := l } ∧ t.inputs = s.inputs := by
  obtain ⟨i, hd, hrx⟩ := push_isRx s.rx b
  have he : exec i s = .next t := by rw [step_present, hd] at h; exact h
  have hinputs : t.inputs = s.inputs := by rw [exec_rx_eq hrx he]
  have hstep := step_of_decode_ok (s := s.withInputs (.op (.rx 0 b) :: l)) rfl hd
  exact ⟨hstep.trans (exec_rx_withInputs (s := s) l hrx he), hinputs⟩

/-- Steps over a queue of bytes are the bytes fed one by one. -/
theorem run_of_feed {bs : List Byte} {outs : List RxOutput} (h : feed bs s = some (outs, t)) :
    Host.Core.run Sys2Proof.core bs.length { s with inputs := feedInputs bs ++ s.inputs } = .next t := by
  induction bs generalizing s outs with
  | nil => cases h; rfl
  | cons b bs ih =>
    rw [feed] at h
    split at h
    next u hu =>
      obtain ⟨⟨outs', t'⟩, hfeed, heq⟩ := Option.map_eq_some_iff.1 h
      cases heq
      obtain ⟨hstep, hinputs⟩ := step_push_queued (feedInputs bs ++ s.inputs) hu
      have hrest := ih hfeed
      rw [hinputs] at hrest
      exact (core_run_next hstep).trans hrest
    next => cases h
    next => cases h

theorem feed_append (s : State) (bs cs : List Byte) :
    feed (bs ++ cs) s = (feed bs s).bind fun p => (feed cs p.2).map fun q => (p.1 ++ q.1, q.2) := by
  induction bs generalizing s with
  | nil => simp
  | cons b bs ih =>
    rw [List.cons_append, feed, feed]
    cases step (s.present (.rx 0 b)) with
    | next t => simp [ih, Option.map_bind, Option.bind_map, Function.comp_def]
    | fault r => rfl
    | refused r => rfl

end Queue

/-- Settles O12: `run_of_feed` and `feed_append`. -/
theorem queuedBytesRunInOrder : Obligations.QueuedBytesRunInOrder := by
  unfold Obligations.QueuedBytesRunInOrder
  exact ⟨fun _ _ _ _ => run_of_feed, feed_append⟩

section TableWord

theorem RxRegs.entered_inv (st : RxState) : (RxRegs.entered st).Inv := by
  cases st with
  | p1 | p2 | dir => rfl
  | len => exact ⟨by decide, rfl, rfl, rfl, rfl⟩
  | opc => exact ⟨by decide, rfl, rfl, rfl⟩
  | pay | chk => exact ⟨by decide, by decide, by decide, by decide⟩

theorem RxState.code_of_ofCode {c : BitVec 3} {st : RxState} (h : RxState.ofCode c = some st) : st.code = c := by
  revert c; cases st <;> decide

theorem RxState.ofCode_eq_none {c : BitVec 3} (h : RxState.ofCode c = none) : c = 7 := by
  revert c; decide

/-- The registers that the model supplies for a `PUSH` word are those it is decoded with (log entry 10). -/
theorem RxRegs.entered_decode {w : RxWord} {st : RxState} (h : RxState.ofCode (rxStateField w) = some st) :
    (Request.rx (rxOp w) (rxByte w)).decode (RxRegs.entered st) = decodeRx (tableRegs w) w := by
  have hcode := RxState.code_of_ofCode h
  have hregs : (RxRegs.entered st).condRegs = tableRegs w := by
    rw [tableRegs, ← hcode]; cases st <;> rfl
  have hword : (RxRegs.entered st).word (rxOp w) (rxByte w) = w := by
    have hst : (RxRegs.entered st).state = st := by cases st <;> rfl
    rw [RxRegs.word, hst, hcode, rxWord_fields]
  rw [Request.decode, hregs, hword]

/-- After reset an RX word is presented in a state of the invariant, in which the request decodes to what the word
does. -/
theorem State.presentRxWord_reset {w : RxWord} {i : Instr} (h : decodeRx (tableRegs w) w = .ok i) :
    ∃ r q, r.Inv ∧ State.reset.presentRxWord w = { State.reset with rx := r, inputs := [.op q] } ∧
      Request.decode q r = .ok i := by
  by_cases hop : rxOp w = 0
  · cases hst : RxState.ofCode (rxStateField w) with
    | none =>
      rw [decodeRx_of_state_seven _ hop (RxState.ofCode_eq_none hst)] at h
      cases h
    | some st =>
      refine ⟨RxRegs.entered st, .rx (rxOp w) (rxByte w), RxRegs.entered_inv st, ?_,
        (RxRegs.entered_decode hst).trans h⟩
      rw [State.presentRxWord, if_pos hop, hst]
      cases st <;> rfl
  · refine ⟨RxRegs.initial, .rx (rxOp w) (rxByte w), RxRegs.initial_inv, if_neg hop, ?_⟩
    obtain ⟨h0, -⟩ | ⟨h1, hd⟩ | ⟨h2, hd⟩ | ⟨h3, -⟩ := Request.decode_rx_cases RxRegs.initial (rxOp w) (rxByte w)
    · exact absurd h0 hop
    · rw [hd, ← h, decodeRx_of_rxOp_one _ h1]
    · rw [hd, ← h, decodeRx_of_rxOp_two _ h2]
    · rw [decodeRx_of_rxOp_three _ h3] at h; cases h

theorem ok_of_toOption {x : Except DecodeError Instr} {i : Instr} (h : x.toOption = some i) : x = .ok i := by
  cases x with
  | ok j => cases h; rfl
  | error e => cases h

theorem State.withFetchWord_reset {nbits w : Nat} {i : Instr} (h : decodeTableWord nbits w = some i) :
    ∃ r q, r.Inv ∧ State.reset.withFetchWord nbits w = { State.reset with rx := r, inputs := [.op q] } ∧
      Request.decode q r = .ok i := by
  unfold decodeTableWord at h
  unfold State.withFetchWord State.presentWord
  cases hword : opWordOfNat nbits w with
  | none => rw [hword] at h; cases h
  | some o =>
    rw [hword] at h
    cases o with
    | rx w => exact State.presentRxWord_reset (ok_of_toOption h)
    | tx w =>
      exact ⟨RxRegs.initial, .tx w, RxRegs.initial_inv, rfl, ok_of_toOption h⟩

end TableWord

/-- Settles O13: the word is presented with registers of the invariant under which it decodes to the same operation,
and there a decoded operation completes. -/
theorem fetchWordRuns : Obligations.FetchWordRuns := by
  unfold Obligations.FetchWordRuns
  intro nbits w i h
  obtain ⟨r, q, hi, hstate, hd⟩ := State.withFetchWord_reset h
  rw [hstate]
  have hstep := step_of_decode_ok (s := { State.reset with rx := r, inputs := [.op q] }) (rest := []) rfl hd
  obtain ⟨t, he⟩ := exec_of_decode (s := { State.reset with rx := r }) hi hd
  exact ⟨hstep, t, hstep.trans he⟩

section Encode
variable {s : State} {f : Frame}

/-- The buffer after ENCODE.OK, read in order, is the frame. -/
theorem Memory.readFrom_encode {m : Memory} {n : Byte} (hm : Memory.WellFormed m) (hf : f.payload.length = n.toNat) :
    Memory.readFrom (Memory.writeAll m (encodeStores n f)) 0 (6 + n.toNat) = f.bytes := by
  rw [encodeStores_eq hf, ← hf, ← Frame.bytes_length]
  exact Memory.readFrom_writeAll_storesFrom hm 0 f.bytes

/-- ENCODE.OK leaves the bytes of its Frame in TXBUF and writes nothing of the decoder. -/
theorem exec_encodeOk_reads {d : Direction} {n op : Byte} {bufLen : BufLen} (hm : Memory.WellFormed s.txbuf)
    (hsize : bufLen.toNat = 6 + n.toNat) :
    ∃ t, exec (.encodeOk d n op bufLen) s = .next t ∧
      Memory.readFrom t.txbuf 0 (6 + n.toNat) = (txFrame d n op s).bytes ∧
      t.txOut = .encoded .ok ∧ t.rx = s.rx ∧ t.rxOut = s.rxOut ∧ t.inputs = s.inputs :=
  ⟨_, execEncodeOk_next.2 ⟨hsize, rfl⟩, Memory.readFrom_encode hm (txPayload_length n s), rfl, rfl, rfl, rfl⟩

/-- Once the caller has written a Frame's payload into TXSRC, that Frame is the operand of a TX operation. -/
theorem txFrame_written (hs : Memory.WellFormed s.txsrc) (hf : f.WellFormed) :
    txFrame f.direction f.lenByte f.opcode
      { s with txsrc := Memory.writeAll s.txsrc (storesFrom 0 f.payload) } = f := by
  have hread := Memory.readFrom_writeAll_storesFrom hs 0 f.payload
  rw [← Frame.lenByte_toNat hf] at hread
  rw [txFrame, txPayload, hread]

theorem payloadInputs_length (p : List Byte) : (payloadInputs p).length = p.length := by
  rw [payloadInputs, List.length_map, ← List.length_map Prod.fst, storesFrom_fst, List.length_range']

/-- The word of `ENCODE f, 6 + n` (30_encoding.md R57). -/
def encodeWord (f : Frame) : TxWord :=
  txWord 2 f.direction.code f.lenByte f.opcode (BitVec.ofNat 16 (6 + f.payload.length))

theorem encodeBufLen_toNat (hf : f.WellFormed) :
    (BitVec.ofNat 16 (6 + f.payload.length)).toNat = 6 + f.lenByte.toNat := by
  have hlen : f.payload.length ≤ 255 := hf
  rw [Frame.lenByte_toNat hf, BitVec.toNat_ofNat, Nat.mod_eq_of_lt (by omega)]

theorem decodeTx_encodeWord (hf : f.WellFormed) :
    decodeTx (encodeWord f) =
      .ok (.encodeOk f.direction f.lenByte f.opcode (BitVec.ofNat 16 (6 + f.payload.length))) :=
  (decodeTx_encode_word ..).trans (congrArg _ (encodeRow_of_size (encodeBufLen_toNat hf)))

theorem encode_inputs (hf : f.WellFormed) :
    (Operation.encode f (6 + f.payload.length)).inputs =
      some (payloadInputs f.payload ++ [.op (.tx (encodeWord f))]) := by
  have hlen : f.payload.length ≤ 255 := hf
  exact if_pos ⟨hf, show 6 + f.payload.length < 65536 by omega⟩

end Encode

/-- Settles O46: TXBUF holds the bytes of the frame (`exec_encodeOk_reads`), which are recognised
(`feed_frame_bytes`). -/
theorem encodeThenDecodeRoundTrip : Obligations.EncodeThenDecodeRoundTrip := by
  unfold Obligations.EncodeThenDecodeRoundTrip
  intro s d n op bufLen hm h hsize
  have hlen : (txFrame d n op s).payload.length = n.toNat := txPayload_length n s
  have hwf : (txFrame d n op s).WellFormed := hlen.trans_le (Nat.le_of_lt_succ n.isLt)
  obtain ⟨t, he, hread, -, hrx, -⟩ := exec_encodeOk_reads (d := d) (op := op) hm hsize
  have hrun := feed_frame_bytes (hrx.trans h) hwf
  rw [hlen, ← hread] at hrun
  exact ⟨t, _, he, hrun, hrx.trans h⟩

/-- Settles O47: the caller's writes put the payload into TXSRC (`run_callerWrites`), so the operand of the last step
is the Frame (`txFrame_written`), whose bytes it leaves in TXBUF. -/
theorem presentedEncodeWritesFrame : Obligations.PresentedEncodeWritesFrame := by
  unfold Obligations.PresentedEncodeWritesFrame
  intro s f hi hf
  have hwrites := run_callerWrites s 0 f.payload (.op (.tx (encodeWord f)) :: s.inputs) (by simpa using hf)
  obtain ⟨t, he, hread, hok, hrx, hout, hin⟩ := exec_encodeOk_reads (d := f.direction) (op := f.opcode)
    (s := { s with txsrc := Memory.writeAll s.txsrc (storesFrom 0 f.payload) }) hi.txbuf.canonical
    (encodeBufLen_toNat hf)
  rw [txFrame_written hi.txsrc.canonical hf, Frame.lenByte_toNat hf] at hread
  have hstep := (step_of_decode_ok (r := .tx (encodeWord f)) (rest := s.inputs) (s := { s with
    inputs := .op (.tx (encodeWord f)) :: s.inputs
    txsrc := Memory.writeAll s.txsrc (storesFrom 0 f.payload) }) rfl (decodeTx_encodeWord hf)).trans he
  refine ⟨_, t, encode_inputs hf, ?_, hok, hread, hrx, hout, hin⟩
  rw [List.length_append, payloadInputs_length, List.append_assoc]
  exact (run_append Sys2Proof.core _ 1 _ _ hwrites).trans (core_run_next hstep)

end Sys2Proof.Machine
end
